-- ==== Sys2Proof/Word.lean ====
section
/-! DEFINITION. The word type: every register, memory cell, operand byte and opcode byte is an
unsigned 8-bit value (00_scope.md R9). -/

namespace Sys2Proof

/-- An unsigned 8-bit value, 0 to 255 (R9, R21, R50). -/
abbrev Byte := BitVec 8

/-- A register index that has passed its range check, 0 to 7 (R24). -/
abbrev RegIx := Fin 8

end Sys2Proof
end

