-- ==== Sys2Proof/Syntax.lean ====
section
/-! DEFINITION. The thirteen instructions (30_encoding.md R88), one constructor per row of the opcode
table, in the table's order; and the answers a decoder can give (R90). -/

namespace Sys2Proof

/-- An instruction with its operand bytes AS FETCHED: a register operand is a whole byte, not yet
range-checked, because the check belongs to the access (R24, R83). -/
inductive Instr where
  /-- HLT, format Z (R165). -/
  | hlt
  /-- RET, format Z (R161). -/
  | ret
  /-- PUSH a, format R (R151). -/
  | push (a : Byte)
  /-- POP a, format R (R152). -/
  | pop (a : Byte)
  /-- PRN a, format R (R182). -/
  | prn (a : Byte)
  /-- CALL a, format R (R160). -/
  | call (a : Byte)
  /-- JMP a, format R (R162). -/
  | jmp (a : Byte)
  /-- JEQ a, format R (R163). -/
  | jeq (a : Byte)
  /-- JNE a, format R (R164). -/
  | jne (a : Byte)
  /-- LDI a, imm, format RI (R180). -/
  | ldi (a imm : Byte)
  /-- ADD a, b, format RR (R131). -/
  | add (a b : Byte)
  /-- MUL a, b, format RR (R132). -/
  | mul (a b : Byte)
  /-- CMP a, b, format RR (R133). -/
  | cmp (a b : Byte)
  deriving DecidableEq, Repr

/-- What decoding an opcode byte with its two candidate operands gives (R90, R114). -/
inductive Decoded where
  /-- One of the thirteen instructions. -/
  | instr (i : Instr)
  /-- Bit 5 clear and no entry in the operation table: the byte is a decode error. -/
  | decodeError (ir : Byte)
  /-- Bit 5 set and not ADD, MUL or CMP: the ALU does not implement the byte. -/
  | unsupportedAluOp (ir : Byte)
  deriving DecidableEq, Repr

end Sys2Proof
end

