-- ==== Sys2Proof/WellFormed.lean ====
section
/-! DEFINITION. Which instruction terms use only legal register operands: "legal only when its value
is 0 to 7" (30_encoding.md R82, R83). An ill-formed term still decodes and still executes: it raises
OutOfRangeRegister if it accesses the register (R24). -/

namespace Sys2Proof

/-- A register operand byte names a register when it is 0 to 7; nothing is masked (R83). -/
def Byte.namesReg (a : Byte) : Bool := decide (a.toNat ≤ 7)

/-- Every register operand of the instruction names a register; LDI's immediate may be any byte
(R84). -/
def Instr.wellFormed : Instr → Bool
  | .hlt => true
  | .ret => true
  | .push a => Byte.namesReg a
  | .pop a => Byte.namesReg a
  | .prn a => Byte.namesReg a
  | .call a => Byte.namesReg a
  | .jmp a => Byte.namesReg a
  | .jeq a => Byte.namesReg a
  | .jne a => Byte.namesReg a
  | .ldi a _ => Byte.namesReg a
  | .add a b => Byte.namesReg a && Byte.namesReg b
  | .mul a b => Byte.namesReg a && Byte.namesReg b
  | .cmp a b => Byte.namesReg a && Byte.namesReg b

end Sys2Proof
end

