-- ==== Sys2Proof/Decode.lean ====
section
/-! DEFINITION. Decoding and encoding (30_encoding.md R80 to R93, 40_dispatch_cycle.md R113, R114):
the structural bits, the opcode map of thirteen whole bytes, the decoder, total on any three bytes
and rejecting by name, and the encoder written from the same map. -/

namespace Sys2Proof

/-! ## Structural bits (R80, R113) -/

/-- `n`, bits 7:6: how many operand bytes follow the opcode byte. -/
def operandCount (ir : Byte) : Nat := (ir >>> 6).toNat

/-- Bit 5: the instruction is routed to the ALU. -/
def aluClass (ir : Byte) : Bool := ir.getLsbD 5

/-- Bit 4: the instruction sets the pc itself; the Dispatcher does not auto-advance. -/
def directPcClass (ir : Byte) : Bool := ir.getLsbD 4

/-- Bits 3:0: distinguishes instructions that share bits 7:4; never selects one alone (R89). -/
def operationId (ir : Byte) : Nat := (ir &&& 0x0F).toNat

/-! ## The opcode map (R88) -/

/-- The opcode byte of an instruction. -/
def opcode : Instr → Byte
  | .hlt => 0x01
  | .ret => 0x11
  | .push _ => 0x45
  | .pop _ => 0x46
  | .prn _ => 0x47
  | .call _ => 0x50
  | .jmp _ => 0x54
  | .jeq _ => 0x55
  | .jne _ => 0x56
  | .ldi _ _ => 0x82
  | .add _ _ => 0xA0
  | .mul _ _ => 0xA2
  | .cmp _ _ => 0xA7

/-- The operand bytes of an instruction at ascending addresses (R82). -/
def operandBytes : Instr → List Byte
  | .hlt => []
  | .ret => []
  | .push a => [a]
  | .pop a => [a]
  | .prn a => [a]
  | .call a => [a]
  | .jmp a => [a]
  | .jeq a => [a]
  | .jne a => [a]
  | .ldi a imm => [a, imm]
  | .add a b => [a, b]
  | .mul a b => [a, b]
  | .cmp a b => [a, b]

/-- The encoder: the opcode byte, then the operand bytes (R55, R81, R82). -/
def encode (i : Instr) : List Byte := opcode i :: operandBytes i

/-! ## The decoder (R90, R92, R114) -/

/-- The ALU's own recognition of its operation code, the whole byte `ir` (R130, R134). -/
def decodeAlu (ir a b : Byte) : Decoded :=
  match ir with
  | 0xA0 => .instr (.add a b)
  | 0xA2 => .instr (.mul a b)
  | 0xA7 => .instr (.cmp a b)
  | _ => .unsupportedAluOp ir

/-- The operation table: the ten non-ALU opcodes, keyed by the whole byte (R114). A format Z entry
ignores both candidate operands and a format R entry ignores the second (R85). -/
def decodeTable (ir a b : Byte) : Decoded :=
  match ir with
  | 0x01 => .instr .hlt
  | 0x82 => .instr (.ldi a b)
  | 0x47 => .instr (.prn a)
  | 0x45 => .instr (.push a)
  | 0x46 => .instr (.pop a)
  | 0x50 => .instr (.call a)
  | 0x11 => .instr .ret
  | 0x54 => .instr (.jmp a)
  | 0x55 => .instr (.jeq a)
  | 0x56 => .instr (.jne a)
  | _ => .decodeError ir

/-- The decoder: routing on bit 5 comes first (R114), then the whole byte decides (R92). -/
def decode (ir a b : Byte) : Decoded :=
  if aluClass ir then decodeAlu ir a b else decodeTable ir a b

/-! ## Words numbered as spec/opcode_table.json numbers them -/

/-- Byte `n` of a number whose byte 0 holds its least significant bits. -/
def byteAt (w n : Nat) : Byte := BitVec.ofNat 8 (w >>> (8 * n))

/-- The three bytes a fetch reads when the table word `w` of `nbits` bits lies at the pc: bytes above
`nbits` are zero. -/
def tableBytes (nbits w : Nat) : List Byte :=
  [byteAt (w % 2 ^ nbits) 0, byteAt (w % 2 ^ nbits) 1, byteAt (w % 2 ^ nbits) 2]

/-- The instruction this decoder reads from a table word, none where it rejects it. -/
def decodeTableWord (nbits w : Nat) : Option Instr :=
  match decode (byteAt (w % 2 ^ nbits) 0) (byteAt (w % 2 ^ nbits) 1) (byteAt (w % 2 ^ nbits) 2) with
  | .instr i => some i
  | .decodeError _ => none
  | .unsupportedAluOp _ => none

end Sys2Proof
end

