-- ==== Sys2Proof/Config.lean ====
section
/-! DEFINITION. What is fixed at launch: the one reset value the spec gives, and the instances this
model names for the three launch parameters the spec leaves open (00_scope.md R7). No rule of this
spec leaves a result open, so there is no free value here. -/

namespace Sys2Proof.Config

/-- SP_RESET, the reset value of register 7 (R6, R42). -/
def spReset : Byte := 0xF4

/-- GPR_RESET for registers 0 to 6. DESIGN CHOICE (log 1), unsafe: R43 leaves it open. -/
def gprReset : Byte := 0x00

/-- FLAG_RESET. DESIGN CHOICE (log 2), unsafe: R45 leaves it open. -/
def flagReset : Bool := false

/-- What a memory cell that no entry lists reads as. DESIGN CHOICE (log 3), unsafe: R58 leaves
MEM_INIT open outside the loaded image. -/
def unlistedByte : Byte := 0x00

end Sys2Proof.Config
end

