-- ==== Sys2Proof/Machine/State.lean ====
section
/-! DEFINITION. The complete state of the machine (10_state.md R20) as plain data, the fatal
conditions it records (60_exceptions.md R201, R207), the reasons a step can stop, and the state right
after reset (R42 to R48, R240). -/

namespace Sys2Proof.Machine

/-- The Dispatcher's run state (R36). `halted` and `faulted` are terminal: only reset leaves them. -/
inductive RunStatus where
  | running
  | halted
  | faulted
  deriving DecidableEq, Repr

/-- The five fatal conditions (R200, R201). -/
inductive FaultCause where
  | decodeError
  | unsupportedAluOp
  | outOfRangeRegister
  | outOfRangeMemory
  | stackPointerUnderflow
  deriving DecidableEq, Repr

/-- A fatal condition as it is raised: its cause and the value recorded with it (R201). -/
structure Raised where
  cause : FaultCause
  value : Nat
  deriving DecidableEq, Repr

/-- The fault record (R207): `atPc` is the spec's field `at`; `ir` is absent when the read of the pc
itself failed. -/
structure FaultRecord where
  cause : FaultCause
  code : Nat
  atPc : Nat
  ir : Option Byte
  value : Nat
  deriving DecidableEq, Repr

/-- Memory as (address, byte) pairs, addresses strictly rising, no entry equal to what an unlisted
address reads as (the form is `Memory.wf` in Machine/Ops.lean). -/
abbrev Memory := List Host.Cell

/-- The whole state (R20). There is nothing else: `ir`, `a`, `b` and `n` are transient (R39). -/
structure State where
  /-- The 256 memory cells (R50). -/
  mem : Memory
  /-- The eight registers; slot 7 is the stack pointer (R21, R25). -/
  x : Vector Byte 8
  /-- The program counter, a natural number that never wraps (R30). -/
  pc : Nat
  /-- The Comparison Flag (R34). -/
  flag : Bool
  /-- The run state (R36). -/
  status : RunStatus
  /-- The fault record, none unless a fatal condition was raised (R37). -/
  fault : Option FaultRecord
  /-- The output port's history, oldest first (R38). -/
  out : List Byte
  deriving DecidableEq, Repr

/-- Reasons a run of `exec` leaves the machine's own state space. The spec's five fatal conditions are
NOT here: the spec describes their entry, so they are next states with status `faulted` (R208). -/
inductive Fault where
  /-- Raised by CALL when it is executed with the pc above 253, so that its return address pc + 2 is
  no byte. R160: "pc <= 253, so ret <= 255 fits a byte"; no step executes anything there, because the
  fetch faults first (R112). Safe: it stops where the spec has no behaviour. -/
  | noReturnAddress
  deriving DecidableEq, Repr

/-- Reasons an instruction has no meaning. -/
inductive Refusal where
  /-- Raised by an arm of `exec` whose instruction has not been modelled yet; no arm is. Safe. -/
  | notModelled (mnemonic : String)
  deriving DecidableEq, Repr

/-- The machine right after reset: register 7 at 0xF4 (R42), the pc at 0 (R44), running, no fault, no
output (R46); registers 0 to 6, the flag and memory at the instances the log names (log 1, 2, 3). -/
def State.reset : State where
  mem := []
  x := #v[Config.gprReset, Config.gprReset, Config.gprReset, Config.gprReset,
    Config.gprReset, Config.gprReset, Config.gprReset, Config.spReset]
  pc := 0
  flag := Config.flagReset
  status := .running
  fault := none
  out := []

end Sys2Proof.Machine
end

