-- ==== Sys2Proof/Machine/Ops.lean ====
section
/-! DEFINITION. The named operations over memory, registers, pc, flag, output and run state, and the
one operation that takes a fatal condition (60_exceptions.md R206 to R208). There is no operation
that returns from one: nothing but reset leaves `faulted` (R209); reset is in Machine/HostPort.lean. -/

namespace Sys2Proof.Machine

/-! ## Memory (20_memory.md) -/

/-- What the cell at `a` holds: the listed byte, else the unlisted byte (R58, R62). -/
def Memory.readByte : Memory → Nat → Byte
  | [], _ => Config.unlistedByte
  | (b, w) :: m, a => if a = b then w else Memory.readByte m a

/-- Put the entry `(a, v)` in address order, replacing an entry at `a`. -/
def Memory.insertByte : Memory → Nat → Byte → Memory
  | [], a, v => [(a, v)]
  | (b, w) :: m, a, v =>
    if a < b then (a, v) :: (b, w) :: m
    else if a = b then (a, v) :: m
    else (b, w) :: Memory.insertByte m a v

/-- Write the cell at `a`, keeping the canonical form: the unlisted byte is held by no entry. -/
def Memory.writeByte (m : Memory) (a : Nat) (v : Byte) : Memory :=
  if v = Config.unlistedByte then m.filter (fun c => decide (c.1 ≠ a)) else m.insertByte a v

/-- The canonical form: addresses strictly rising, each within 0 to 255 (R50), no entry equal to what
an unlisted address reads as. -/
abbrev Memory.wf (m : Memory) : Prop :=
  m.Pairwise (fun c d => c.1 < d.1) ∧ ∀ c ∈ m, c.1 ≤ 255 ∧ c.2 ≠ Config.unlistedByte

/-- MemRead(a, 1) (R52): bounds-checked, one byte, no side effect. -/
def memRead (s : State) (a : Nat) : Except Raised Byte :=
  if a ≤ 255 then .ok (s.mem.readByte a) else .error ⟨.outOfRangeMemory, a⟩

/-- MemWrite(a, 1, v) (R52): bounds-checked, one byte. -/
def memWrite (s : State) (a : Nat) (v : Byte) : Except Raised State :=
  if a ≤ 255 then .ok { s with mem := s.mem.writeByte a v } else .error ⟨.outOfRangeMemory, a⟩

/-! ## Registers (10_state.md R21 to R25) -/

/-- `x[r]`. No register is hard-wired or special-cased (R22). -/
def State.getReg (s : State) (r : RegIx) : Byte := s.x[r.val]

/-- `x[r] <- v`. -/
def State.setReg (s : State) (r : RegIx) (v : Byte) : State := { s with x := s.x.set r.val v }

/-- `sp`, shorthand for `x[7]` (R10, R25). -/
def State.sp (s : State) : Byte := s.getReg 7

/-- `x[7] <- x[7] - 1`; its callers have checked `x[7] ≠ 0` (R137, R151). -/
def State.decSp (s : State) : State := s.setReg 7 (BitVec.ofNat 8 (s.sp.toNat - 1))

/-- `x[7] <- (x[7] + 1) mod 256`: the increment wraps (R137, R152). -/
def State.incSp (s : State) : State := s.setReg 7 (BitVec.ofNat 8 ((s.sp.toNat + 1) % 256))

/-! ## Program counter, flag, output, run state -/

/-- `pc <- target`. -/
def State.setPc (s : State) (target : Nat) : State := { s with pc := target }

/-- Step 6 of the cycle for an instruction whose bit 4 is clear: `pc <- pc + 1 + n`, with `n` from
bits 7:6 of its opcode byte; an integer sum that never wraps (R116). -/
def State.autoAdvance (s : State) (ir : Byte) : State := s.setPc (s.pc + 1 + operandCount ir)

/-- `flag <- v` (R35). -/
def State.setFlag (s : State) (v : Bool) : State := { s with flag := v }

/-- `out <- out ++ [v]` (R38). -/
def State.emit (s : State) (v : Byte) : State := { s with out := s.out ++ [v] }

/-- `status <- HALTED` (R117). -/
def State.halt (s : State) : State := { s with status := .halted }

/-! ## The stack (42_stack.md R150) -/

/-- The check PUSH and CALL make first: at `x[7] = 0` the push address would be -1 (R151, R160). -/
def checkPush (s : State) : Except Raised Unit :=
  if s.sp = 0 then .error ⟨.stackPointerUnderflow, 0⟩ else .ok ()

/-- Store a byte at the top of the stack, `MemWrite(x[7], 1, v)`. -/
def storeTop (s : State) (v : Byte) : Except Raised State := memWrite s s.sp.toNat v

/-- Load the byte at the top of the stack, `MemRead(x[7], 1)`. -/
def loadTop (s : State) : Except Raised Byte := memRead s s.sp.toNat

/-! ## Fatal conditions (60_exceptions.md) -/

/-- The numeric code of a cause (R201). -/
def faultCode : FaultCause → Nat
  | .decodeError => 1
  | .unsupportedAluOp => 2
  | .outOfRangeRegister => 3
  | .outOfRangeMemory => 4
  | .stackPointerUnderflow => 5

/-- The opcode byte of the current cycle as the fault record keeps it: present if the read of the pc
succeeds, else absent (R207). -/
def opcodeAtPc (s : State) : Option Byte :=
  if s.pc ≤ 255 then some (s.mem.readByte s.pc) else none

/-- Fault entry (R206, R207, R208), applied to the state at the START of the cycle: nothing but the
record and the run state changes; the pc stays at the faulting instruction. -/
def takeFault (s : State) (r : Raised) : State :=
  { s with
    status := .faulted
    fault := some
      { cause := r.cause, code := faultCode r.cause, atPc := s.pc, ir := opcodeAtPc s
        value := r.value } }

/-- The end of a cycle that began in `s` (R118): its writes are committed together, or a raise
abandons all of them and the fatal condition is taken from `s`. -/
def commit (s : State) (cycle : Except Raised State) : Host.Outcome State Fault Refusal :=
  match cycle with
  | .ok t => .next t
  | .error r => .next (takeFault s r)

/-- What the Dispatcher does when `status` is not RUNNING: nothing, and the state never changes
(R110). -/
def idle (s : State) : Host.Outcome State Fault Refusal := .next s

end Sys2Proof.Machine
end

