-- ==== Sys2Proof/Machine/Flags.lean ====
section
/-! DEFINITION. The one condition code (10_state.md R34): how CMP computes the Comparison Flag, and
the two conditions that read it. -/

namespace Sys2Proof.Machine

/-- CMP's outcome: true when the two 8-bit values are equal, else false; no signedness (R133). -/
def compareEqual (u v : Byte) : Bool := decide (u = v)

/-- JEQ's condition (R163). -/
def condEq (s : State) : Bool := s.flag

/-- JNE's condition (R164). -/
def condNe (s : State) : Bool := !s.flag

end Sys2Proof.Machine
end

