-- ==== Sys2Proof/Machine/Operands.lean ====
section
/-! DEFINITION. The operand forms (30_encoding.md R82 to R84): a register operand, LDI's immediate,
and the absolute jump target taken from a byte (43_control_flow.md R166). -/

namespace Sys2Proof.Machine

/-- CheckReg(a) (R10, R24): the whole operand byte as an index, legal from 0 to 7, never masked. It
answers the checked index. -/
def checkReg (a : Byte) : Except Raised RegIx :=
  if h : a.toNat < 8 then .ok ⟨a.toNat, h⟩ else .error ⟨.outOfRangeRegister, a.toNat⟩

/-- LDI's immediate: the byte as it stands, no extension (R84). -/
def immediate (b : Byte) : Byte := b

/-- A byte placed in the pc unchanged, `zext_9` (R166): always 0 to 255. -/
def jumpTarget (v : Byte) : Nat := v.toNat

/-- The address of the instruction after a two-byte direct-PC instruction: CALL's return address, and
the untaken advance of JEQ and JNE (R31). -/
def afterTwoBytes (s : State) : Nat := s.pc + 2

end Sys2Proof.Machine
end

