-- ==== Sys2Proof/Machine/Alu.lean ====
section
/-! DEFINITION. ADD, MUL, CMP (41_alu.md). -/

namespace Sys2Proof.Machine

/-- The sum as an exact number, then its low 8 bits (R135, R136). -/
def aluAdd (u v : Byte) : Byte := BitVec.ofNat 8 ((u.toNat + v.toNat) % 256)

/-- The product as an exact number, then its low 8 bits (R135, R136). -/
def aluMul (u v : Byte) : Byte := BitVec.ofNat 8 ((u.toNat * v.toNat) % 256)

/-- ADD a, b (R131). -/
def execAdd (a b : Byte) (s : State) : Host.Outcome State Fault Refusal :=
  commit s do
    let ra ← checkReg a
    let rb ← checkReg b
    return (s.setReg ra (aluAdd (s.getReg ra) (s.getReg rb))).autoAdvance (opcode (.add a b))

/-- MUL a, b (R132). -/
def execMul (a b : Byte) (s : State) : Host.Outcome State Fault Refusal :=
  commit s do
    let ra ← checkReg a
    let rb ← checkReg b
    return (s.setReg ra (aluMul (s.getReg ra) (s.getReg rb))).autoAdvance (opcode (.mul a b))

/-- CMP a, b (R133). -/
def execCmp (a b : Byte) (s : State) : Host.Outcome State Fault Refusal :=
  commit s do
    let ra ← checkReg a
    let rb ← checkReg b
    return (s.setFlag (compareEqual (s.getReg ra) (s.getReg rb))).autoAdvance (opcode (.cmp a b))

end Sys2Proof.Machine
end

