-- ==== Sys2Proof/Machine/Control.lean ====
section
/-! DEFINITION. CALL, RET, JMP, JEQ, JNE, HLT (43_control_flow.md). The five direct-PC instructions
write the pc on every path and are not auto-advanced (R116, R166). -/

namespace Sys2Proof.Machine

/-- CALL a (R160): underflow check, register check, push of the return address, jump to the register
as it reads after the decrement. Above pc 253, where nothing executes, there is no byte to push
(log 7). -/
def execCall (a : Byte) (s : State) : Host.Outcome State Fault Refusal :=
  if s.pc ≤ 253 then
    commit s do
      checkPush s
      let ra ← checkReg a
      let s1 := s.decSp
      let s2 ← storeTop s1 (BitVec.ofNat 8 (afterTwoBytes s))
      return s2.setPc (jumpTarget (s2.getReg ra))
  else .fault .noReturnAddress

/-- RET (R161). -/
def execRet (s : State) : Host.Outcome State Fault Refusal :=
  commit s do
    let v ← loadTop s
    return (s.setPc (jumpTarget v)).incSp

/-- Jump to the address in a register (R166). -/
def jumpReg (a : Byte) (s : State) : Except Raised State := do
  let ra ← checkReg a
  return s.setPc (jumpTarget (s.getReg ra))

/-- The jump of JEQ and JNE: the register is accessed, and so checked, only when the jump is taken;
the untaken side performs the advance itself (R163, R164). -/
def jumpIf (taken : Bool) (a : Byte) (s : State) : Except Raised State :=
  if taken then jumpReg a s else .ok (s.setPc (afterTwoBytes s))

/-- JMP a (R162). -/
def execJmp (a : Byte) (s : State) : Host.Outcome State Fault Refusal := commit s (jumpReg a s)

/-- JEQ a (R163). -/
def execJeq (a : Byte) (s : State) : Host.Outcome State Fault Refusal :=
  commit s (jumpIf (condEq s) a s)

/-- JNE a (R164). -/
def execJne (a : Byte) (s : State) : Host.Outcome State Fault Refusal :=
  commit s (jumpIf (condNe s) a s)

/-- HLT (R165): the standard auto-advance, then `status <- HALTED` (R117). -/
def execHlt (s : State) : Host.Outcome State Fault Refusal :=
  commit s (.ok (s.autoAdvance (opcode .hlt)).halt)

end Sys2Proof.Machine
end

