-- ==== Sys2Proof/Machine/RegisterSet.lean ====
section
/-! DEFINITION. LDI, PRN (44_register_set_and_output.md). -/

namespace Sys2Proof.Machine

/-- LDI a, imm (R180). -/
def execLdi (a imm : Byte) (s : State) : Host.Outcome State Fault Refusal :=
  commit s do
    let ra ← checkReg a
    return (s.setReg ra (immediate imm)).autoAdvance (opcode (.ldi a imm))

/-- PRN a (R182): one 8-bit value appended to the output history; it never blocks. -/
def execPrn (a : Byte) (s : State) : Host.Outcome State Fault Refusal :=
  commit s do
    let ra ← checkReg a
    return (s.emit (s.getReg ra)).autoAdvance (opcode (.prn a))

end Sys2Proof.Machine
end

