-- ==== Sys2Proof/Machine/Stack.lean ====
section
/-! DEFINITION. PUSH, POP (42_stack.md). -/

namespace Sys2Proof.Machine

/-- PUSH a (R151): the underflow check, then the register check; the source register is read after
the decrement, so PUSH R7 stores the decremented pointer. -/
def execPush (a : Byte) (s : State) : Host.Outcome State Fault Refusal :=
  commit s do
    checkPush s
    let ra ← checkReg a
    let s1 := s.decSp
    let s2 ← storeTop s1 (s1.getReg ra)
    return s2.autoAdvance (opcode (.push a))

/-- POP a (R152): the register is written first, then the pointer as it then stands is incremented. -/
def execPop (a : Byte) (s : State) : Host.Outcome State Fault Refusal :=
  commit s do
    let ra ← checkReg a
    let v ← loadTop s
    return ((s.setReg ra v).incSp).autoAdvance (opcode (.pop a))

end Sys2Proof.Machine
end

