-- ==== Sys2Proof/Machine/Fetch.lean ====
section
/-! DEFINITION. Steps 1 to 3 and the routing of the dispatch cycle (40_dispatch_cycle.md R112 to
R114): the unconditional three-byte fetch, and the fatal condition of an opcode byte that is no
instruction. -/

namespace Sys2Proof.Machine

/-- The opcode byte and the two candidate operands of a cycle; transient, not state (R10, R39). -/
structure Fetched where
  ir : Byte
  a : Byte
  b : Byte
  deriving DecidableEq, Repr

/-- Fetch: three bounds-checked reads in this order, on every cycle, whatever the length (R112). -/
def fetch (s : State) : Except Raised Fetched := do
  let ir ← memRead s s.pc
  let a ← memRead s (s.pc + 1)
  let b ← memRead s (s.pc + 2)
  return { ir := ir, a := a, b := b }

/-- The instruction a fetched triple selects, or the fatal condition of its opcode byte (R90, R114). -/
def route (f : Fetched) : Except Raised Instr :=
  match decode f.ir f.a f.b with
  | .instr i => .ok i
  | .decodeError ir => .error ⟨.decodeError, ir.toNat⟩
  | .unsupportedAluOp ir => .error ⟨.unsupportedAluOp, ir.toNat⟩

/-- Fetch, then route: the instruction of the cycle, or the first fatal condition met (R121). -/
def fetchInstr (s : State) : Except Raised Instr := do
  let f ← fetch s
  route f

end Sys2Proof.Machine
end

