-- ==== Sys2Proof/Machine/HostPort.lean ====
section
/-! DEFINITION. What the host can do to and see of the machine (70_reset_and_hazards.md R240 to R250,
20_memory.md R70, 10_state.md R41). None of these is a step of the machine; the host makes no move
that changes state during a run. -/

namespace Sys2Proof.Machine

/-- Reset (R240): every piece of state but memory at its reset value. The launch parameters
GPR_RESET and FLAG_RESET are arguments, and so is memory, which is unspecified after a reset: its
contents need neither survive nor be cleared. -/
def hostReset (gpr : Vector Byte 7) (flag : Bool) (mem : Memory) : State where
  mem := mem
  x := gpr.push Config.spReset
  pc := 0
  flag := flag
  status := .running
  fault := none
  out := []

/-- An explicit write by the host, after reset and before start (R70), through Memory's own contract
(R52): an address outside 0 to 255 fails. That the failed write changes nothing is the model's choice
(DESIGN CHOICE, log 11). The function does not look at the run state; that the host calls it outside a
run only is the spec's own decision D22. -/
def hostWrite (s : State) (a : Nat) (v : Byte) : State :=
  match memWrite s a v with
  | .ok t => t
  | .error _ => s

/-- Store a list of bytes at ascending addresses from `a`. -/
def hostStore (s : State) (a : Nat) : List Byte → State
  | [] => s
  | v :: vs => hostStore (hostWrite s a v) (a + 1) vs

/-- The load (R241, R246): the image's bytes at address 0 upward. R247 does not say what a load of more
than 256 bytes does, except that Memory rejects its 257th store; that there is then no loaded state is
the model's choice (DESIGN CHOICE, log 11). -/
def hostLoad (s : State) (img : List Byte) : Option State :=
  if img.length ≤ 256 then some (hostStore s 0 img) else none

/-- The memory whose 256 cells hold `f 0` to `f 255`, in canonical form. -/
def Memory.ofCells (f : Nat → Byte) : Memory :=
  (List.range 256).filterMap
    (fun a => if f a = Config.unlistedByte then none else some (a, f a))

/-- The launch state (R242) for every image of at most 256 bytes and every value of the three open
launch parameters: MEM_INIT agrees with the image on its cells and is `memInit` elsewhere (R58). R242
and R58 have no longer image and R247 leaves one open: that it has no launch state, as `hostLoad` gives
it none, is the model's choice (DESIGN CHOICE, log 11). -/
def launch (img : List Byte) (gpr : Vector Byte 7) (flag : Bool) (memInit : Nat → Byte) :
    Option State :=
  if img.length ≤ 256 then
    some (hostReset gpr flag (Memory.ofCells (fun a => img.getD a (memInit a))))
  else none

/-- What the observation port returns (R41): the pc, the three cells at it (absent above 255), and
the eight registers. -/
structure TraceView where
  pc : Nat
  byte0 : Option Byte
  byte1 : Option Byte
  byte2 : Option Byte
  regs : Vector Byte 8
  deriving DecidableEq, Repr

/-- One cell as the observation port reports it: absent above 255, no fault. -/
def traceCell (s : State) (a : Nat) : Option Byte :=
  if a ≤ 255 then some (s.mem.readByte a) else none

/-- Read the observation port (R41): a function of the state, in every run state, changing nothing. -/
def trace (s : State) : TraceView where
  pc := s.pc
  byte0 := traceCell s s.pc
  byte1 := traceCell s (s.pc + 1)
  byte2 := traceCell s (s.pc + 2)
  regs := s.x

end Sys2Proof.Machine
end

