-- ==== Sys2Proof/Machine/Step.lean ====
section
/-! DEFINITION. One dispatch cycle (40_dispatch_cycle.md R110, R118), and the placing of one
instruction where the next cycle fetches it. -/

namespace Sys2Proof.Machine

/-- One step: a dispatch cycle if and only if `status` is RUNNING (R110). The cycle fetches, routes
and executes; a fatal condition met before execution is taken by the same operation as one met in it. -/
def step (s : State) : Host.Outcome State Fault Refusal :=
  match s.status with
  | .running =>
    match fetchInstr s with
    | .ok i => exec i s
    | .error r => commit s (.error r)
  | .halted => idle s
  | .faulted => idle s

/-- `s` with the instruction of a table word stored at the pc, as a host's load would (R70, R241), in
the run state in which the next step is a dispatch cycle. At State.reset only memory changes. The
pc stays: above 253 no placing of bytes makes a fetch succeed (R112). -/
def State.withFetchWord (s : State) (nbits w : Nat) : State :=
  { hostStore s s.pc (tableBytes nbits w) with status := .running, fault := none }

end Sys2Proof.Machine
end

