-- ==== Sys2Proof/Machine/Image.lean ====
section
/-! DEFINITION. The program image format (70_reset_and_hazards.md R246). The loader is outside the
block (R5); the format is transcribed because it fixes what memory holds at launch. A line is a list
of characters. -/

namespace Sys2Proof.Machine

/-- What a line of an image file contributes. -/
inductive ImageLine where
  /-- Blank after comment-stripping, or not beginning with 0 or 1: skipped. -/
  | skip
  /-- One byte at the next address. -/
  | byte (v : Byte)
  /-- A line on which the source does not say what the loader does (R247). -/
  | unstated
  deriving DecidableEq, Repr

/-- White space within a line. -/
def isBlankChar (c : Char) : Bool := c = ' ' || c = '\t' || c = '\r'

/-- The value of a binary digit, none for any other character. -/
def binaryDigit (c : Char) : Option Nat :=
  if c = '0' then some 0 else if c = '1' then some 1 else none

/-- Binary digits read most significant first, on from the value `acc`. -/
def binaryValue (acc : Nat) : List Char → Option Nat
  | [] => some acc
  | c :: cs =>
    match binaryDigit c with
    | some d => binaryValue (2 * acc + d) cs
    | none => none

/-- One line (R246): what stands before the first `#`; blank is skipped; a line that begins with 0 or
1 gives its first eight characters read as base 2; any other line is skipped. Fewer than eight
characters, a non-binary character among them, and leading white space before a digit are the cases
R247 lists as unstated (log 10). -/
def imageLine (line : List Char) : ImageLine :=
  let content := line.takeWhile (fun c => c != '#')
  match content.dropWhile isBlankChar with
  | [] => .skip
  | c :: _ =>
    if (binaryDigit c).isNone then .skip
    else if content.head? != some c then .unstated
    else if content.length < 8 then .unstated
    else
      match binaryValue 0 (content.take 8) with
      | some v => .byte (BitVec.ofNat 8 v)
      | none => .unstated

/-- The bytes of an image file, in order from address 0; none if a line's treatment is unstated. -/
def imageOfLines : List (List Char) → Option (List Byte)
  | [] => some []
  | l :: ls =>
    match imageLine l, imageOfLines ls with
    | .skip, rest => rest
    | .byte v, some vs => some (v :: vs)
    | .byte _, none => none
    | .unstated, _ => none

end Sys2Proof.Machine
end

