-- ==== Sys2Proof/Safety.lean ====
section
/-! DEFINITION. The terms claims are stated in: legal operand bytes, frames, how a run ends, which
fatal condition an instruction raises (60_exceptions.md R202, R205), and the invariant of the machine. -/

namespace Sys2Proof.Machine

/-! ## Operands and outcomes -/

/-- The operand byte that names register `r`: the eight bytes 0 to 7 are exactly these (R83). -/
def regByte (r : RegIx) : Byte := BitVec.ofNat 8 r.val

/-- Apply a function to the next state of an outcome, if there is one. -/
def mapNext (f : State → State) : Host.Outcome State Fault Refusal → Host.Outcome State Fault Refusal
  | .next s => .next (f s)
  | .fault r => .fault r
  | .refused r => .refused r

/-- Go on from the next state of an outcome, if there is one. -/
def andThen (o : Host.Outcome State Fault Refusal)
    (f : State → Host.Outcome State Fault Refusal) : Host.Outcome State Fault Refusal :=
  match o with
  | .next s => f s
  | .fault r => .fault r
  | .refused r => .refused r

/-- `k` pushes of the same operand byte in a row, stopping where one gives no next state. -/
def pushTimes : Nat → Byte → State → Host.Outcome State Fault Refusal
  | 0, _, s => .next s
  | k + 1, a, s => andThen (exec (.push a) s) (pushTimes k a)

/-- The three bytes the Dispatcher fetches at the pc are `ir`, `a`, `b`. -/
def State.holdsAtPc (s : State) (ir a b : Byte) : Prop :=
  s.mem.readByte s.pc = ir ∧ s.mem.readByte (s.pc + 1) = a ∧ s.mem.readByte (s.pc + 2) = b

/-- The eight characters of a byte as an image line writes it, most significant bit first (R246). -/
def imageDigits (v : Byte) : List Char :=
  [7, 6, 5, 4, 3, 2, 1, 0].map (fun k => if v.getLsbD k then '1' else '0')

/-! ## Frames -/

/-- Every register outside `P` holds what it held. -/
def regsSameBut (P : RegIx → Prop) (s t : State) : Prop := ∀ r, ¬ P r → t.getReg r = s.getReg r

/-- Every byte of memory reads as before. -/
def memSame (s t : State) : Prop := ∀ a, t.mem.readByte a = s.mem.readByte a

/-- Every byte of memory but the one at `b` reads as before. -/
def memSameBut (b : Nat) (s t : State) : Prop :=
  ∀ a, a ≠ b → t.mem.readByte a = s.mem.readByte a

/-- The run state and the fault record are as before. -/
def runSame (s t : State) : Prop := t.status = s.status ∧ t.fault = s.fault

/-! ## How a run ends (R120, R210, R244) -/

/-- The run has ended. -/
def State.ended (s : State) : Bool := decide (s.status ≠ .running)

/-- The run ended normally, by HLT; a faulted run is never this. -/
def State.endedNormally (s : State) : Bool := decide (s.status = .halted)

/-- The run ended abnormally, by a fatal condition. -/
def State.endedAbnormally (s : State) : Bool := decide (s.status = .faulted)

/-! ## Which fatal condition an instruction raises once fetched (R202; order R205, rows 6 to 8) -/

/-- The condition of an operand byte used as a register index. -/
def regFault (a : Byte) : Option Raised :=
  if 7 < a.toNat then some ⟨.outOfRangeRegister, a.toNat⟩ else none

/-- The condition of a push with the stack pointer at 0. -/
def pushFault (s : State) : Option Raised :=
  if (s.getReg 7).toNat = 0 then some ⟨.stackPointerUnderflow, 0⟩ else none

/-- The matrix of R202 as a function: the first condition met in the order of R205. -/
def ownFault (i : Instr) (s : State) : Option Raised :=
  match i with
  | .hlt => none
  | .ret => none
  | .push a => (pushFault s).or (regFault a)
  | .pop a => regFault a
  | .prn a => regFault a
  | .call a => (pushFault s).or (regFault a)
  | .jmp a => regFault a
  | .jeq a => if s.flag then regFault a else none
  | .jne a => if s.flag then none else regFault a
  | .ldi a _ => regFault a
  | .add a b => (regFault a).or (regFault b)
  | .mul a b => (regFault a).or (regFault b)
  | .cmp a b => (regFault a).or (regFault b)

/-! ## The invariant -/

/-- What a fault record says of the state it stands in (R201, R207): the code is its cause's, `atPc`
is the pc the machine stopped at, `ir` is the byte there, and the value is what R201 lists. -/
def FaultRecord.legal (r : FaultRecord) (s : State) : Prop :=
  r.code = faultCode r.cause ∧ r.atPc = s.pc ∧ r.ir = opcodeAtPc s ∧
  match r.cause with
  | .decodeError => r.ir.map BitVec.toNat = some r.value
  | .unsupportedAluOp => r.ir.map BitVec.toNat = some r.value
  | .outOfRangeRegister => 8 ≤ r.value ∧ r.value ≤ 255
  | .outOfRangeMemory => r.value = 256 ∧ 254 ≤ r.atPc
  | .stackPointerUnderflow => r.value = 0 ∧ s.getReg 7 = 0

/-- The invariant of the machine: memory in canonical form, the pc within 0 to 256 (R30), a fault
record exactly when faulted (R37), and the record legal. -/
def State.Inv (s : State) : Prop :=
  s.mem.wf ∧ s.pc ≤ 256 ∧ (s.status = .faulted ↔ s.fault.isSome) ∧
  ∀ r, s.fault = some r → r.legal s

end Sys2Proof.Machine
end

