-- ==== Sys2Proof/Certificates/Slice0/Obligations.lean ====
section
/-! DEFINITION. The statements for the provers. Where a docstring says "the spec's own decision D<n>",
the rule it formalises is marked so in spec/92_eei_decisions.md and the statement's basis is
'derived'. A fault clause names the state `takeFault` gives; Obligations.FaultEntryRecords states what
that is. -/

open Sys2Proof Sys2Proof.Machine

/-! ## Encoding -/

/-- A few words written out from the spec's encodings decode to what they stand for (30_encoding.md
section 4, 95_test_vectors.md sections 2 and 3). -/
def Obligations.SampleWordsDecode : Prop :=
  decode 0x01 0x00 0x00 = .instr .hlt ∧
  decode 0x82 0x00 0x08 = .instr (.ldi 0x00 0x08) ∧
  decode 0xA2 0x00 0x01 = .instr (.mul 0x00 0x01) ∧
  decode 0x45 0x07 0x00 = .instr (.push 0x07) ∧
  decode 0x55 0x40 0x00 = .instr (.jeq 0x40) ∧
  decodeTableWord 24 0x0100A0 = some (.add 0x00 0x01) ∧
  decodeTableWord 16 0x0150 = some (.call 0x01) ∧
  decode 0x00 0x00 0x00 = .decodeError 0x00 ∧
  decode 0xE0 0x00 0x01 = .unsupportedAluOp 0xE0

/-- R88: the thirteen rows, for every operand byte: the opcode byte selects the instruction, the
encoder writes the bytes of its format, the class is the row's, and nothing but the whole byte
selects. -/
def Obligations.OpcodeMapIsTheTable : Prop :=
  (∀ a b : Byte,
    decode 0x01 a b = .instr .hlt ∧ decode 0x82 a b = .instr (.ldi a b) ∧
    decode 0x47 a b = .instr (.prn a) ∧ decode 0xA2 a b = .instr (.mul a b) ∧
    decode 0x45 a b = .instr (.push a) ∧ decode 0x46 a b = .instr (.pop a) ∧
    decode 0x50 a b = .instr (.call a) ∧ decode 0x11 a b = .instr .ret ∧
    decode 0xA0 a b = .instr (.add a b) ∧ decode 0xA7 a b = .instr (.cmp a b) ∧
    decode 0x54 a b = .instr (.jmp a) ∧ decode 0x55 a b = .instr (.jeq a) ∧
    decode 0x56 a b = .instr (.jne a)) ∧
  (∀ a b : Byte,
    encode .hlt = [0x01] ∧ encode (.ldi a b) = [0x82, a, b] ∧ encode (.prn a) = [0x47, a] ∧
    encode (.mul a b) = [0xA2, a, b] ∧ encode (.push a) = [0x45, a] ∧
    encode (.pop a) = [0x46, a] ∧ encode (.call a) = [0x50, a] ∧ encode .ret = [0x11] ∧
    encode (.add a b) = [0xA0, a, b] ∧ encode (.cmp a b) = [0xA7, a, b] ∧
    encode (.jmp a) = [0x54, a] ∧ encode (.jeq a) = [0x55, a] ∧ encode (.jne a) = [0x56, a]) ∧
  (∀ i : Instr,
    (aluClass (opcode i) = true ↔ ∃ a b, i = .add a b ∨ i = .mul a b ∨ i = .cmp a b) ∧
    (directPcClass (opcode i) = true ↔
      i = .ret ∨ ∃ a, i = .call a ∨ i = .jmp a ∨ i = .jeq a ∨ i = .jne a)) ∧
  (∀ (ir a b : Byte) (i : Instr), decode ir a b = .instr i → ir = opcode i)

/-- R113: the structural bits are bits 7:6, 5 and 4 of the opcode byte, as numbers. -/
def Obligations.StructuralBitsAreBits : Prop :=
  ∀ ir : Byte, operandCount ir = ir.toNat / 64 ∧
    (aluClass ir = true ↔ ir.toNat / 32 % 2 = 1) ∧
    (directPcClass ir = true ↔ ir.toNat / 16 % 2 = 1) ∧
    operationId ir = ir.toNat % 16

/-- R81: the opcode byte comes first; the length is one plus the operand count of the opcode byte
alone, 1 to 3; a byte whose count is 3 belongs to no instruction. -/
def Obligations.LengthFromOpcodeByte : Prop :=
  (∀ i : Instr, (encode i).head? = some (opcode i) ∧
    (encode i).length = 1 + (opcode i).toNat / 64 ∧
    1 ≤ (encode i).length ∧ (encode i).length ≤ 3) ∧
  (∀ (ir a b : Byte) (i : Instr), ir.toNat / 64 = 3 → decode ir a b ≠ .instr i)

/-- Every byte that is none of the thirteen is fatal, whatever follows it (R90, R134): bit 5 set gives
UnsupportedAluOp, bit 5 clear DecodeError; 125 and 118 bytes; a cycle that fetches one changes nothing
but the run state and the record. That the ALU matches the whole byte, so that 0x20 and 0xE0 are
UnsupportedAluOp and not ADD, is the spec's own decision D25; that the cycle's state is otherwise
untouched is D5 (R206); that the record's value is the opcode byte is D6 (R201, R207). -/
def Obligations.IllegalOpcodesAreFatal : Prop :=
  (∀ ir a b : Byte, (∀ i : Instr, opcode i ≠ ir) →
    decode ir a b =
      if ir.toNat / 32 % 2 = 1 then .unsupportedAluOp ir else .decodeError ir) ∧
  (∀ (s : State) (ir a b : Byte), s.status = .running → s.pc ≤ 253 → s.holdsAtPc ir a b →
    (∀ i : Instr, opcode i ≠ ir) →
    step s = .next (takeFault s
      ⟨if ir.toNat / 32 % 2 = 1 then .unsupportedAluOp else .decodeError, ir.toNat⟩)) ∧
  ((List.range 256).filter (fun n =>
    decode (BitVec.ofNat 8 n) 0 0 = .unsupportedAluOp (BitVec.ofNat 8 n))).length = 125 ∧
  ((List.range 256).filter (fun n =>
    decode (BitVec.ofNat 8 n) 0 0 = .decodeError (BitVec.ofNat 8 n))).length = 118

/-- Decode and encode agree, both ways: three fetched bytes decode to `i` exactly when they begin with
the encoding of `i`. So decoding an encoding gives the instruction with every operand at every value,
no other bytes do, and the bytes after it have no effect. -/
def Obligations.DecodeEncodeAgree : Prop :=
  ∀ (ir a b : Byte) (i : Instr), decode ir a b = .instr i ↔ encode i <+: [ir, a, b]

/-- The operand bytes an opcode does not count (R85) have no effect on decoding, legal or not
(30_encoding.md section 3; that they are still read is the spec's own decision D4). -/
def Obligations.UncountedOperandsIgnored : Prop :=
  (∀ ir a b a' b' : Byte, operandCount ir = 0 → decode ir a b = decode ir a' b') ∧
  (∀ ir a b b' : Byte, operandCount ir = 1 → decode ir a b = decode ir a b')

/-- A register operand is the whole byte, 0 to 7 (R24, R83); no other byte is masked onto a register. -/
def Obligations.RegisterOperandNotMasked : Prop :=
  ∀ a : Byte, (∀ r : RegIx, checkReg a = .ok r ↔ a.toNat = r.val) ∧
    (7 < a.toNat → checkReg a = .error ⟨.outOfRangeRegister, a.toNat⟩)

/-- An instruction's bytes placed by `withFetchWord` are what the next step runs (the model's own
convention, log 4). -/
def Obligations.PlacedWordIsRun : Prop :=
  ∀ (s : State) (nbits w : Nat) (i : Instr), s.pc ≤ 253 → decodeTableWord nbits w = some i →
    step (s.withFetchWord nbits w) = exec i (s.withFetchWord nbits w)

/-! ## The dispatch cycle -/

/-- The cycle as one function (R118): a step of a running machine runs the instruction its three
fetched bytes decode to; nothing stands around `exec`. -/
def Obligations.StepRunsDecodedInstruction : Prop :=
  ∀ (s : State) (ir a b : Byte) (i : Instr), s.status = .running → s.pc ≤ 253 →
    s.holdsAtPc ir a b → decode ir a b = .instr i → step s = exec i s

/-- A cycle that begins above 253 faults at fetch (R112), whatever is stored there; the address
recorded is the first of pc, pc + 1, pc + 2 above 255 (the spec's own decision D4). -/
def Obligations.FetchAbove253Faults : Prop :=
  ∀ s : State, s.status = .running → 253 < s.pc →
    step s = .next (takeFault s ⟨.outOfRangeMemory, if 255 < s.pc then s.pc else 256⟩)

/-- A machine that is not running performs nothing (R110): no number of steps changes its state (the
spec's own decisions D7, D17; that such a step answers the same state is log 5). -/
def Obligations.StoppedMachineNeverChanges : Prop :=
  ∀ s : State, s.status ≠ .running →
    step s = .next s ∧ ∀ k : Nat, Host.Core.run Sys2Proof.core k s = .next s

/-- The step function is total: every state has a next state. R118 and R260 say so of a running
machine. That the step of a halted or faulted machine answers a next state, its own, is the model's
(DEDUCED, log 5), and so is that a fatal condition is a next state and no fault outside the state
(DEDUCED, log 6). `exec` answers a next state too where instructions execute. -/
def Obligations.EveryStateHasNextState : Prop :=
  (∀ s : State, ∃ t, step s = .next t) ∧
  (∀ (i : Instr) (s : State), s.pc ≤ 253 → ∃ t, exec i s = .next t)

/-- The instruction by fault matrix (R202), with its priority (R205): where `ownFault` gives a
condition, executing the instruction takes exactly it (the order is the spec's own decision D13, the
untaken branch D19). -/
def Obligations.FaultMatrixHolds : Prop :=
  ∀ (i : Instr) (s : State) (r : Raised), s.pc ≤ 253 → ownFault i s = some r →
    exec i s = .next (takeFault s r)

/-- Outside the matrix every instruction completes: no fault is recorded, and the run state changes
only by HLT. -/
def Obligations.NoFaultOutsideMatrix : Prop :=
  ∀ (i : Instr) (s : State), s.pc ≤ 253 → ownFault i s = none →
    ∃ t, exec i s = .next t ∧ t.fault = s.fault ∧
      (i = .hlt ∧ t.status = .halted ∨ i ≠ .hlt ∧ t.status = s.status)

/-- The Dispatcher's advance (R116). An instruction whose bit 4 is clear leaves the pc at pc + 1 + n, an
integer sum that never wraps; the direct-PC instructions are exactly CALL, RET, JMP, JEQ, JNE, each of
which sets the pc itself on every path, the untaken side included. Their targets are R160 to R164 and
the table of R32; that CALL R7 jumps to the pointer as decremented is the spec's own decision D24, and
that an untaken JEQ or JNE goes on by 2 for every operand byte, unchecked, is D19. That the pc does not
wrap is D3. -/
def Obligations.DispatcherAdvancesPc : Prop :=
  (∀ i : Instr, directPcClass (opcode i) = true ↔
    i = .ret ∨ ∃ a, i = .call a ∨ i = .jmp a ∨ i = .jeq a ∨ i = .jne a) ∧
  (∀ (i : Instr) (s : State), s.pc ≤ 253 → ownFault i s = none →
    ∃ t, exec i s = .next t ∧
      (directPcClass (opcode i) = false → t.pc = s.pc + 1 + (opcode i).toNat / 64) ∧
      (i = .ret → t.pc = (s.mem.readByte (s.getReg 7).toNat).toNat) ∧
      (∀ r, i = .call (regByte r) → t.pc = (t.getReg r).toNat) ∧
      (∀ r, i = .jmp (regByte r) → t.pc = (s.getReg r).toNat) ∧
      (∀ r, i = .jeq (regByte r) → s.flag = true → t.pc = (s.getReg r).toNat) ∧
      (∀ r, i = .jne (regByte r) → s.flag = false → t.pc = (s.getReg r).toNat) ∧
      (∀ a, i = .jeq a → s.flag = false → t.pc = s.pc + 2) ∧
      (∀ a, i = .jne a → s.flag = true → t.pc = s.pc + 2))

/-- The run state's transitions (R36): a running machine halts exactly by executing HLT, and otherwise
runs on or takes one fatal condition; no record is written without a fault (the spec's own decision
D7). -/
def Obligations.RunStateTransitions : Prop :=
  ∀ s t : State, s.status = .running → step s = .next t →
    (t.status = .halted ↔ s.pc ≤ 253 ∧ s.mem.readByte s.pc = 0x01) ∧
    (t.status = .faulted → ∃ r, t = takeFault s r) ∧
    (t.status ≠ .faulted → t.fault = s.fault)

/-- The pc stays within 0 to 256 (R30), and reaches 256 only by the auto-advance of a three-byte
instruction at 253 (the spec's own decision D3). -/
def Obligations.PcStaysInRange : Prop :=
  ∀ s t : State, s.status = .running → s.pc ≤ 256 → step s = .next t →
    t.pc ≤ 256 ∧
    (s.pc ≤ 253 → t.pc = 256 → s.pc = 253 ∧ operandCount (s.mem.readByte 253) = 2)

/-! ## ALU -/

/-- R131, ADD whole: encoding; the sum modulo 256 into the first register, everything else unchanged,
pc + 3; the first operand's check, then the second's. -/
def Obligations.AddWritesSumModulo256 : Prop :=
  (∀ a b : Byte, decode 0xA0 a b = .instr (.add a b)) ∧
  (∀ (s : State) (ra rb : RegIx), ∃ t, exec (.add (regByte ra) (regByte rb)) s = .next t ∧
    (t.getReg ra).toNat = ((s.getReg ra).toNat + (s.getReg rb).toNat) % 256 ∧
    regsSameBut (· = ra) s t ∧ t.pc = s.pc + 3 ∧ t.flag = s.flag ∧ t.mem = s.mem ∧
    t.out = s.out ∧ runSame s t) ∧
  (∀ (s : State) (a b : Byte), 7 < a.toNat →
    exec (.add a b) s = .next (takeFault s ⟨.outOfRangeRegister, a.toNat⟩)) ∧
  (∀ (s : State) (a b : Byte), a.toNat ≤ 7 → 7 < b.toNat →
    exec (.add a b) s = .next (takeFault s ⟨.outOfRangeRegister, b.toNat⟩))

/-- R132, MUL whole: encoding; the product modulo 256 into the first register, everything else
unchanged, pc + 3; the two checks in order. -/
def Obligations.MulWritesProductModulo256 : Prop :=
  (∀ a b : Byte, decode 0xA2 a b = .instr (.mul a b)) ∧
  (∀ (s : State) (ra rb : RegIx), ∃ t, exec (.mul (regByte ra) (regByte rb)) s = .next t ∧
    (t.getReg ra).toNat = ((s.getReg ra).toNat * (s.getReg rb).toNat) % 256 ∧
    regsSameBut (· = ra) s t ∧ t.pc = s.pc + 3 ∧ t.flag = s.flag ∧ t.mem = s.mem ∧
    t.out = s.out ∧ runSame s t) ∧
  (∀ (s : State) (a b : Byte), 7 < a.toNat →
    exec (.mul a b) s = .next (takeFault s ⟨.outOfRangeRegister, a.toNat⟩)) ∧
  (∀ (s : State) (a b : Byte), a.toNat ≤ 7 → 7 < b.toNat →
    exec (.mul a b) s = .next (takeFault s ⟨.outOfRangeRegister, b.toNat⟩))

/-- R133, CMP whole: encoding; the flag true exactly when the two values are equal, everything else
unchanged, pc + 3; the two checks in order. -/
def Obligations.CmpSetsFlagToEquality : Prop :=
  (∀ a b : Byte, decode 0xA7 a b = .instr (.cmp a b)) ∧
  (∀ (s : State) (ra rb : RegIx), ∃ t, exec (.cmp (regByte ra) (regByte rb)) s = .next t ∧
    (t.flag = true ↔ (s.getReg ra).toNat = (s.getReg rb).toNat) ∧
    t.x = s.x ∧ t.pc = s.pc + 3 ∧ t.mem = s.mem ∧ t.out = s.out ∧ runSame s t) ∧
  (∀ (s : State) (a b : Byte), 7 < a.toNat →
    exec (.cmp a b) s = .next (takeFault s ⟨.outOfRangeRegister, a.toNat⟩)) ∧
  (∀ (s : State) (a b : Byte), a.toNat ≤ 7 → 7 < b.toNat →
    exec (.cmp a b) s = .next (takeFault s ⟨.outOfRangeRegister, b.toNat⟩))

/-! ## Stack -/

/-- PUSH whole (R151): encoding; the pointer goes down by one and the register, read after the
decrement, is stored at the new pointer (for PUSH R7 the spec's own decision D24); the underflow check
outranks the register check (D13). -/
def Obligations.PushStoresBelowPointer : Prop :=
  (∀ a b : Byte, decode 0x45 a b = .instr (.push a)) ∧
  (∀ (s : State) (r : RegIx), 0 < (s.getReg 7).toNat →
    ∃ t, exec (.push (regByte r)) s = .next t ∧
      (t.getReg 7).toNat = (s.getReg 7).toNat - 1 ∧ regsSameBut (· = 7) s t ∧
      t.mem.readByte ((s.getReg 7).toNat - 1) = t.getReg r ∧
      memSameBut ((s.getReg 7).toNat - 1) s t ∧
      t.pc = s.pc + 2 ∧ t.flag = s.flag ∧ t.out = s.out ∧ runSame s t) ∧
  (∀ (s : State) (a : Byte), (s.getReg 7).toNat = 0 →
    exec (.push a) s = .next (takeFault s ⟨.stackPointerUnderflow, 0⟩)) ∧
  (∀ (s : State) (a : Byte), 0 < (s.getReg 7).toNat → 7 < a.toNat →
    exec (.push a) s = .next (takeFault s ⟨.outOfRangeRegister, a.toNat⟩))

/-- POP whole (R152): encoding; the byte at the pointer into the register, then the pointer, as it
then stands, up by one modulo 256 (the wrap is the spec's own decision D8, POP R7 is D24); an empty
stack is no fault. -/
def Obligations.PopLoadsThenIncrements : Prop :=
  (∀ a b : Byte, decode 0x46 a b = .instr (.pop a)) ∧
  (∀ (s : State) (r : RegIx), ∃ t, exec (.pop (regByte r)) s = .next t ∧
    (r ≠ 7 → t.getReg r = s.mem.readByte (s.getReg 7).toNat ∧
      (t.getReg 7).toNat = ((s.getReg 7).toNat + 1) % 256) ∧
    (r = 7 → (t.getReg 7).toNat = ((s.mem.readByte (s.getReg 7).toNat).toNat + 1) % 256) ∧
    regsSameBut (fun q => q = r ∨ q = 7) s t ∧ t.mem = s.mem ∧
    t.pc = s.pc + 2 ∧ t.flag = s.flag ∧ t.out = s.out ∧ runSame s t) ∧
  (∀ (s : State) (a : Byte), 7 < a.toNat →
    exec (.pop a) s = .next (takeFault s ⟨.outOfRangeRegister, a.toNat⟩))

/-- PUSH then POP (R155): the popped register holds the value pushed and the pointer returns, with the
two exceptions the spec names for register 7 (42_stack.md section 3). -/
def Obligations.PushPopRoundTrip : Prop :=
  ∀ (s : State) (r q : RegIx), 0 < (s.getReg 7).toNat →
    ∃ u, andThen (exec (.push (regByte r)) s) (exec (.pop (regByte q))) = .next u ∧
      (r ≠ 7 → q ≠ 7 → u.getReg q = s.getReg r) ∧
      (r = 7 → q ≠ 7 → (u.getReg q).toNat = (s.getReg 7).toNat - 1) ∧
      (q ≠ 7 → u.getReg 7 = s.getReg 7) ∧
      (r ≠ 7 → q = 7 → (u.getReg 7).toNat = ((s.getReg r).toNat + 1) % 256) ∧
      (r = 7 → q = 7 → u.getReg 7 = s.getReg 7) ∧
      u.pc = s.pc + 4 ∧ runSame s u

/-- The capacity (R151, R154): with the pointer at p, exactly p pushes succeed in a row and the next
one underflows; at reset p is 244 (42_stack.md section 2). -/
def Obligations.PushCapacityIsThePointer : Prop :=
  (∀ (s : State) (r : RegIx) (k : Nat), k ≤ (s.getReg 7).toNat →
    ∃ t, pushTimes k (regByte r) s = .next t ∧ runSame s t ∧
      (t.getReg 7).toNat = (s.getReg 7).toNat - k ∧
      (k = (s.getReg 7).toNat →
        exec (.push (regByte r)) t = .next (takeFault t ⟨.stackPointerUnderflow, 0⟩))) ∧
  (State.reset.getReg 7).toNat = 244

/-! ## Control flow -/

/-- CALL whole (R160): encoding; the address after the CALL is pushed, the pc becomes the register as
read after the decrement (CALL R7 is the spec's own decision D24); the underflow check outranks the
register check (D13). -/
def Obligations.CallPushesReturnAddress : Prop :=
  (∀ a b : Byte, decode 0x50 a b = .instr (.call a)) ∧
  (∀ (s : State) (r : RegIx), s.pc ≤ 253 → 0 < (s.getReg 7).toNat →
    ∃ t, exec (.call (regByte r)) s = .next t ∧
      (t.getReg 7).toNat = (s.getReg 7).toNat - 1 ∧ regsSameBut (· = 7) s t ∧
      (t.mem.readByte ((s.getReg 7).toNat - 1)).toNat = s.pc + 2 ∧
      memSameBut ((s.getReg 7).toNat - 1) s t ∧
      t.pc = (t.getReg r).toNat ∧ t.flag = s.flag ∧ t.out = s.out ∧ runSame s t) ∧
  (∀ (s : State) (a : Byte), s.pc ≤ 253 → (s.getReg 7).toNat = 0 →
    exec (.call a) s = .next (takeFault s ⟨.stackPointerUnderflow, 0⟩)) ∧
  (∀ (s : State) (a : Byte), s.pc ≤ 253 → 0 < (s.getReg 7).toNat → 7 < a.toNat →
    exec (.call a) s = .next (takeFault s ⟨.outOfRangeRegister, a.toNat⟩))

/-- RET whole (R161): encoding; the byte at the pointer into the pc, the pointer up by one modulo 256
(the wrap is the spec's own decision D8); RET never faults. -/
def Obligations.RetPopsIntoPc : Prop :=
  (∀ a b : Byte, decode 0x11 a b = .instr .ret) ∧
  (∀ s : State, ∃ t, exec .ret s = .next t ∧
    t.pc = (s.mem.readByte (s.getReg 7).toNat).toNat ∧
    (t.getReg 7).toNat = ((s.getReg 7).toNat + 1) % 256 ∧ regsSameBut (· = 7) s t ∧
    t.mem = s.mem ∧ t.flag = s.flag ∧ t.out = s.out ∧ runSame s t)

/-- CALL then RET (R161): the pc is the address after the CALL and every register, the pointer
included, holds what it held (43_control_flow.md section 2, the source's property under RET). -/
def Obligations.CallRetRoundTrip : Prop :=
  ∀ (s : State) (r : RegIx), s.pc ≤ 253 → 0 < (s.getReg 7).toNat →
    ∃ u, andThen (exec (.call (regByte r)) s) (exec .ret) = .next u ∧
      u.pc = s.pc + 2 ∧ (∀ q, u.getReg q = s.getReg q) ∧ u.flag = s.flag ∧ runSame s u

/-- R162, JMP whole: encoding; the pc becomes the register's value, 0 to 255, and nothing else
changes; the register check. -/
def Obligations.JmpSetsPcToRegister : Prop :=
  (∀ a b : Byte, decode 0x54 a b = .instr (.jmp a)) ∧
  (∀ (s : State) (r : RegIx),
    exec (.jmp (regByte r)) s = .next { s with pc := (s.getReg r).toNat }) ∧
  (∀ (s : State) (a : Byte), 7 < a.toNat →
    exec (.jmp a) s = .next (takeFault s ⟨.outOfRangeRegister, a.toNat⟩))

/-- JEQ whole (R163): encoding; taken when the flag is true; when it is false the pc goes on by 2 for
every operand byte, those above 7 included (the spec's own decision D19). -/
def Obligations.JeqJumpsWhenFlagTrue : Prop :=
  (∀ a b : Byte, decode 0x55 a b = .instr (.jeq a)) ∧
  (∀ (s : State) (r : RegIx), s.flag = true →
    exec (.jeq (regByte r)) s = .next { s with pc := (s.getReg r).toNat }) ∧
  (∀ (s : State) (a : Byte), s.flag = false →
    exec (.jeq a) s = .next { s with pc := s.pc + 2 }) ∧
  (∀ (s : State) (a : Byte), s.flag = true → 7 < a.toNat →
    exec (.jeq a) s = .next (takeFault s ⟨.outOfRangeRegister, a.toNat⟩))

/-- JNE whole (R164): JEQ with the sense of the flag inverted (the untaken side's missing check is the
spec's own decision D19). -/
def Obligations.JneJumpsWhenFlagFalse : Prop :=
  (∀ a b : Byte, decode 0x56 a b = .instr (.jne a)) ∧
  (∀ (s : State) (r : RegIx), s.flag = false →
    exec (.jne (regByte r)) s = .next { s with pc := (s.getReg r).toNat }) ∧
  (∀ (s : State) (a : Byte), s.flag = true →
    exec (.jne a) s = .next { s with pc := s.pc + 2 }) ∧
  (∀ (s : State) (a : Byte), s.flag = false → 7 < a.toNat →
    exec (.jne a) s = .next (takeFault s ⟨.outOfRangeRegister, a.toNat⟩))

/-- Exactly one of JEQ a and JNE a is taken for a given flag (R164): it does what JMP a does, a fault
included, and the other goes on by 2. -/
def Obligations.ExactlyOneBranchTaken : Prop :=
  ∀ (s : State) (a : Byte),
    if s.flag then exec (.jeq a) s = exec (.jmp a) s ∧ exec (.jne a) s = .next (s.setPc (s.pc + 2))
    else exec (.jne a) s = exec (.jmp a) s ∧ exec (.jeq a) s = .next (s.setPc (s.pc + 2))

/-- R165, R117, HLT whole: encoding; the pc goes on by 1 and the machine is halted, nothing else
changes and no further cycle runs; a HLT stored at 254 or 255 is not executed. -/
def Obligations.HltAdvancesAndHalts : Prop :=
  (∀ a b : Byte, decode 0x01 a b = .instr .hlt) ∧
  (∀ s : State, exec .hlt s = .next { s with pc := s.pc + 1, status := .halted }) ∧
  (∀ s t : State, s.status = .halted → step s = .next t → t = s) ∧
  (∀ s : State, s.status = .running → s.pc = 254 ∨ s.pc = 255 → s.mem.readByte s.pc = 0x01 →
    ∃ t, step s = .next t ∧ t.status = .faulted ∧ t.pc = s.pc)

/-! ## Register set and output -/

/-- R180, LDI whole: encoding; the byte as fetched into the register, everything else unchanged,
pc + 3; the register check; the old value is not read. -/
def Obligations.LdiWritesImmediate : Prop :=
  (∀ a b : Byte, decode 0x82 a b = .instr (.ldi a b)) ∧
  (∀ (s : State) (r : RegIx) (imm : Byte), ∃ t, exec (.ldi (regByte r) imm) s = .next t ∧
    t.getReg r = imm ∧ regsSameBut (· = r) s t ∧ t.pc = s.pc + 3 ∧ t.flag = s.flag ∧
    t.mem = s.mem ∧ t.out = s.out ∧ runSame s t) ∧
  (∀ (s : State) (r : RegIx) (v imm : Byte),
    exec (.ldi (regByte r) imm) (s.setReg r v) = exec (.ldi (regByte r) imm) s) ∧
  (∀ (s : State) (a imm : Byte), 7 < a.toNat →
    exec (.ldi a imm) s = .next (takeFault s ⟨.outOfRangeRegister, a.toNat⟩))

/-- PRN whole (R182): encoding; the register's value appended to the output history, everything else
unchanged, pc + 2; the register check (what PRN does at the boundary is the spec's own decision
D12). -/
def Obligations.PrnAppendsRegister : Prop :=
  (∀ a b : Byte, decode 0x47 a b = .instr (.prn a)) ∧
  (∀ (s : State) (r : RegIx), exec (.prn (regByte r)) s =
    .next { s with out := s.out ++ [s.getReg r], pc := s.pc + 2 }) ∧
  (∀ (s : State) (a : Byte), 7 < a.toNat →
    exec (.prn a) s = .next (takeFault s ⟨.outOfRangeRegister, a.toNat⟩))

/-! ## Frames -/

/-- What ADD, MUL and LDI leave unchanged in every next state: every register but the destination, all
of memory, the flag, the output; without a fault the run state and record too. -/
def Obligations.RegisterWritersFrame : Prop :=
  ∀ (s t : State) (a b : Byte) (i : Instr),
    i = .add a b ∨ i = .mul a b ∨ i = .ldi a b → exec i s = .next t →
    regsSameBut (fun r => a.toNat = r.val) s t ∧ memSame s t ∧ t.flag = s.flag ∧ t.out = s.out ∧
    (ownFault i s = none → runSame s t)

/-- What PUSH and CALL leave unchanged in every next state: every register but 7, every byte of memory
but the one at the address they store to, which is the decremented pointer their meanings store at,
the flag, the output; a fault stores nothing. -/
def Obligations.StackWritersFrame : Prop :=
  ∀ (s t : State) (a : Byte) (i : Instr), i = .push a ∨ i = .call a → exec i s = .next t →
    regsSameBut (· = 7) s t ∧ memSameBut s.decSp.sp.toNat s t ∧ t.flag = s.flag ∧
    t.out = s.out ∧
    (ownFault i s = none → runSame s t) ∧
    (ownFault i s ≠ none → memSame s t ∧ t.x = s.x)

/-- What POP and RET leave unchanged in every next state: all of memory, every register but the
pointer and POP's destination, the flag, the output; without a fault the run state and record too. -/
def Obligations.StackReadersFrame : Prop :=
  (∀ (s t : State) (a : Byte), exec (.pop a) s = .next t →
    memSame s t ∧ regsSameBut (fun r => a.toNat = r.val ∨ r = 7) s t ∧ t.flag = s.flag ∧
    t.out = s.out ∧ (ownFault (.pop a) s = none → runSame s t) ∧
    (ownFault (.pop a) s ≠ none → t.x = s.x)) ∧
  (∀ s t : State, exec .ret s = .next t →
    memSame s t ∧ regsSameBut (· = 7) s t ∧ t.flag = s.flag ∧ t.out = s.out ∧ runSame s t)

/-- What CMP, PRN, HLT, JMP, JEQ and JNE leave unchanged in every next state: all registers and all of
memory; all but CMP the flag, all but PRN the output, all but HLT, without a fault, the run state and
record. -/
def Obligations.NoRegisterWritersFrame : Prop :=
  ∀ (s t : State) (a b : Byte) (i : Instr),
    i = .cmp a b ∨ i = .prn a ∨ i = .hlt ∨ i = .jmp a ∨ i = .jeq a ∨ i = .jne a →
    exec i s = .next t →
    regsSameBut (fun _ => False) s t ∧ memSame s t ∧
    (i ≠ .cmp a b → t.flag = s.flag) ∧ (i ≠ .prn a → t.out = s.out) ∧
    (ownFault i s = none → t.fault = s.fault ∧ (i ≠ .hlt → t.status = s.status))

/-! ## Rules of the whole machine -/

/-- R35: the flag is written by CMP and by nothing else, and read by JEQ and JNE and by nothing else:
two states that differ only in the flag give, under any other instruction, outcomes that differ at
most in the flag. -/
def Obligations.FlagWrittenByCmpReadByBranches : Prop :=
  (∀ (i : Instr) (s t : State), exec i s = .next t → (∀ a b, i ≠ .cmp a b) → t.flag = s.flag) ∧
  (∀ (s : State) (ra rb : RegIx), ∃ t, exec (.cmp (regByte ra) (regByte rb)) s = .next t ∧
    (t.flag = true ↔ (s.getReg ra).toNat = (s.getReg rb).toNat)) ∧
  (∀ (i : Instr) (s : State) (v : Bool), (∀ a, i ≠ .jeq a) → (∀ a, i ≠ .jne a) →
    mapNext (fun t => t.setFlag false) (exec i (s.setFlag v)) =
      mapNext (fun t => t.setFlag false) (exec i s)) ∧
  (∀ (s : State) (r : RegIx),
    exec (.jeq (regByte r)) (s.setFlag true) =
      .next ((s.setFlag true).setPc (s.getReg r).toNat) ∧
    exec (.jne (regByte r)) (s.setFlag false) =
      .next ((s.setFlag false).setPc (s.getReg r).toNat))

/-- Memory is written by PUSH and CALL only (R60); POP and RET keep the popped cell. The cell PUSH and
CALL write is the one below the pointer (R151, R160), and what PUSH R7 stores there is the spec's own
decision D24; that they write no other byte is Obligations.StackWritersFrame. The last clause is the
write the host may make outside a run (R70, the spec's own decision D22); `hostWrite` is a function of
the state that does not look at the run state, so the clause holds of every state (log 11). -/
def Obligations.MemoryWrittenByPushAndCallOnly : Prop :=
  (∀ (i : Instr) (s t : State), exec i s = .next t → (∀ a, i ≠ .push a) → (∀ a, i ≠ .call a) →
    memSame s t) ∧
  (∀ (s : State) (r : RegIx), 0 < (s.getReg 7).toNat →
    ∃ t, exec (.push (regByte r)) s = .next t ∧
      t.mem.readByte ((s.getReg 7).toNat - 1) = t.getReg r) ∧
  (∀ (s : State) (r : RegIx), s.pc ≤ 253 → 0 < (s.getReg 7).toNat →
    ∃ t, exec (.call (regByte r)) s = .next t ∧
      (t.mem.readByte ((s.getReg 7).toNat - 1)).toNat = s.pc + 2) ∧
  (∀ (s : State) (a b : Nat) (v : Byte), a ≤ 255 →
    (hostWrite s a v).mem.readByte b = if b = a then v else s.mem.readByte b)

/-- The output history (R38, R183) only grows, by at most one value a step, and only PRN grows it
(44_register_set_and_output.md, 10_state.md section 5; the history is the spec's own decision D12). -/
def Obligations.OutputGrowsByPrnOnly : Prop :=
  (∀ (i : Instr) (s t : State), exec i s = .next t → (∀ a, i ≠ .prn a) → t.out = s.out) ∧
  (∀ s t : State, step s = .next t →
    t.out = s.out ∨ s.pc ≤ 253 ∧ s.mem.readByte s.pc = 0x47 ∧ ∃ v, t.out = s.out ++ [v])

/-- Fetch coherence (R65): a byte stored by PUSH is what the very next fetch reads there, as opcode or
operand, with nothing in between (20_memory.md section 5; the spec's own decision D21). -/
def Obligations.NextFetchSeesPushedByte : Prop :=
  ∀ (s : State) (r : RegIx), 0 < (s.getReg 7).toNat → s.pc + 2 ≤ 253 →
    ∃ t f, exec (.push (regByte r)) s = .next t ∧ fetch t = .ok f ∧
      ((s.getReg 7).toNat - 1 = s.pc + 2 → f.ir = t.getReg r) ∧
      ((s.getReg 7).toNat - 1 = s.pc + 3 → f.a = t.getReg r) ∧
      ((s.getReg 7).toNat - 1 = s.pc + 4 → f.b = t.getReg r)

/-! ## Fatal conditions -/

/-- Fault entry and its record (R201, R207, R208): the five codes; the record's cause, code, address,
opcode byte and value; the run state; everything else as it was (the record and the codes are the
spec's own decision D6, the state FAULTED D7). That the opcode byte is read from the memory cell at the
pc when the fault is taken, and is absent when the pc is above 255, is the model's reading of R207
(DEDUCED, log 9). -/
def Obligations.FaultEntryRecords : Prop :=
  (faultCode .decodeError = 1 ∧ faultCode .unsupportedAluOp = 2 ∧
    faultCode .outOfRangeRegister = 3 ∧ faultCode .outOfRangeMemory = 4 ∧
    faultCode .stackPointerUnderflow = 5) ∧
  (∀ (s : State) (r : Raised), takeFault s r =
    { s with
      status := .faulted
      fault := some
        { cause := r.cause, code := faultCode r.cause, atPc := s.pc
          ir := if s.pc ≤ 255 then some (s.mem.readByte s.pc) else none
          value := r.value } })

/-- Faults are precise (R206): a step that ends faulted leaves memory, registers, flag, output and pc
exactly as they were, and records the address it stopped at (the spec's own decision D5). -/
def Obligations.FaultsArePrecise : Prop :=
  ∀ s t : State, s.status = .running → step s = .next t → t.status = .faulted →
    t.mem = s.mem ∧ t.x = s.x ∧ t.flag = s.flag ∧ t.out = s.out ∧ t.pc = s.pc ∧
    ∃ r, t.fault = some r ∧ r.atPc = s.pc ∧ r.code = faultCode r.cause

/-! ## Memory -/

/-- The two operations of memory (R52), each failing exactly outside 0 to 255; a write changes one cell
and nothing else. An address can be outside only in two places. One is the fetch, which succeeds exactly
at a pc of 253 or below (R112, the spec's own decision D4). The other is a push at pointer 0, which is
reported under a cause and code of its own (R151, R201, the spec's own decision D23). Every other stack
access is inside. -/
def Obligations.MemoryOperationsAreBounded : Prop :=
  (∀ (s : State) (a : Nat), a ≤ 255 → memRead s a = .ok (s.mem.readByte a)) ∧
  (∀ (s : State) (a : Nat), 255 < a → memRead s a = .error ⟨.outOfRangeMemory, a⟩) ∧
  (∀ (s : State) (a : Nat) (v : Byte), a ≤ 255 → ∃ t, memWrite s a v = .ok t ∧
    t.mem.readByte a = v ∧ memSameBut a s t ∧ { t with mem := s.mem } = s) ∧
  (∀ (s : State) (a : Nat) (v : Byte), 255 < a →
    memWrite s a v = .error ⟨.outOfRangeMemory, a⟩) ∧
  (∀ s : State, (∃ f, fetch s = .ok f) ↔ s.pc ≤ 253) ∧
  (∀ s : State, (s.getReg 7).toNat = 0 → checkPush s = .error ⟨.stackPointerUnderflow, 0⟩) ∧
  (∀ s : State, ∃ v, loadTop s = .ok v) ∧
  (∀ (s : State) (v : Byte), ∃ t, storeTop s v = .ok t)

/-- The canonical form is canonical: two memories in it that read alike at every address are the same
data (the model's own form, log 3). -/
def Obligations.EqualReadsEqualMemories : Prop :=
  ∀ m n : Memory, m.wf → n.wf → (∀ a, m.readByte a = n.readByte a) → m = n

/-! ## The invariant -/

/-- Every step from a state that meets the invariant gives a state that meets it. Its clauses: memory
stays in canonical form, which is the model's own (DESIGN CHOICE, log 3); the pc stays within 0 to 256
(R30, the spec's own decision D3), a bound the model keeps here and not in the type (DESIGN CHOICE, log
8); a record is present exactly when faulted (R36, R37, the spec's own decisions D7, D6); and every
record says what it must of the state it stands in (R201, R207, the spec's own decision D6), its opcode
byte being the cell at the pc (DEDUCED, log 9). -/
def Obligations.StepKeepsInvariant : Prop :=
  ∀ s t : State, s.Inv → step s = .next t → t.Inv

/-- The invariant holds at reset. R47 gives memory no reset value: that State.reset lists no cell, and
the canonical form which that empty list has, are the model's choice (DESIGN CHOICE, log 3). The pc of 0
is R44's, the run state and the absent record R46's. -/
def Obligations.ResetMeetsInvariant : Prop := State.reset.Inv

/-! ## Reset, load, launch, observation -/

/-- R42: reset leaves register 7 at 0xF4, whatever the launch parameters. -/
def Obligations.ResetSetsStackPointer : Prop :=
  State.reset.getReg 7 = 0xF4 ∧
  ∀ (gpr : Vector Byte 7) (flag : Bool) (mem : Memory), (hostReset gpr flag mem).getReg 7 = 0xF4

/-- What reset leaves elsewhere (R43 to R48, R240): pc 0, running, no fault, no output (the spec's own
decision D18); the registers 0 to 6, the flag and memory at the launch parameters, for which State.reset
names zeros, false and an unlisted memory (log 1, 2, 3: the model's choice). -/
def Obligations.ResetLeavesTheRest : Prop :=
  (∀ (gpr : Vector Byte 7) (flag : Bool) (mem : Memory),
    (hostReset gpr flag mem).pc = 0 ∧ (hostReset gpr flag mem).status = .running ∧
    (hostReset gpr flag mem).fault = none ∧ (hostReset gpr flag mem).out = [] ∧
    (hostReset gpr flag mem).flag = flag ∧ (hostReset gpr flag mem).mem = mem ∧
    ∀ k : Fin 7, (hostReset gpr flag mem).getReg k.castSucc = gpr[k]) ∧
  State.reset = hostReset (Vector.replicate 7 Config.gprReset) Config.flagReset []

/-- The load (R241, R246): an image of at most 256 bytes lies at address 0 upward, the other cells and
everything but memory as before (70_reset_and_hazards.md sections 1, 3, 4). R247 does not say what
happens to a longer image: that it is not loaded is the model's choice (DESIGN CHOICE, log 11). -/
def Obligations.LoadPlacesImageFromZero : Prop :=
  (∀ (s : State) (img : List Byte), img.length ≤ 256 → ∃ t, hostLoad s img = some t ∧
    (∀ a, t.mem.readByte a = img.getD a (s.mem.readByte a)) ∧ { t with mem := s.mem } = s) ∧
  (∀ (s : State) (img : List Byte), 256 < img.length → hostLoad s img = none)

/-- The launch state (R242), for every image of at most 256 bytes and every value of the three open
launch parameters: memory is the image and MEM_INIT elsewhere, the rest is reset, and the invariant
holds (70_reset_and_hazards.md section 1, 20_memory.md section 3; the spec's own decisions D9, D10,
D11); the canonical form of memory inside the invariant is the model's own (DESIGN CHOICE, log 3). R247
leaves a longer image open: that it has no launch state is the model's choice (DESIGN CHOICE, log 11). -/
def Obligations.LaunchStateForEveryParameter : Prop :=
  ∀ (img : List Byte) (gpr : Vector Byte 7) (flag : Bool) (memInit : Nat → Byte),
    (img.length ≤ 256 → ∃ t, launch img gpr flag memInit = some t ∧
      (∀ a, a ≤ 255 → t.mem.readByte a = img.getD a (memInit a)) ∧
      t = hostReset gpr flag t.mem ∧ t.Inv) ∧
    (256 < img.length → launch img gpr flag memInit = none)

/-- The image format (R246): lines of eight binary digits, most significant first, each with any
comment after it, give their bytes in order (70_reset_and_hazards.md section 3). -/
def Obligations.ImageLinesGiveTheirBytes : Prop :=
  ∀ lines : List (Byte × List Char),
    imageOfLines (lines.map (fun p => imageDigits p.1 ++ ' ' :: '#' :: p.2)) =
      some (lines.map Prod.fst)

/-- The observation port (R41) shows the pc, the registers and the three cells at the pc, a cell above
255 as absent (10_state.md section 7; the spec's own decision D15). -/
def Obligations.TraceShowsState : Prop :=
  ∀ s : State, (trace s).pc = s.pc ∧ (trace s).regs = s.x ∧
    (trace s).byte0 = (if s.pc ≤ 255 then some (s.mem.readByte s.pc) else none) ∧
    (trace s).byte1 = (if s.pc ≤ 254 then some (s.mem.readByte (s.pc + 1)) else none) ∧
    (trace s).byte2 = (if s.pc ≤ 253 then some (s.mem.readByte (s.pc + 2)) else none)
end

