-- ==== Sys2Proof/Laws/Memory.lean ====
section
/-! SUPPORT. The laws of memory: what a write does to every cell, and that every memory operation
keeps the canonical form. -/

namespace Sys2Proof.Machine

theorem readByte_insertByte (m : Memory) (a b : Nat) (v : Byte) :
    (m.insertByte a v).readByte b = if b = a then v else m.readByte b := by
  induction m with
  | nil => simp [Memory.insertByte, Memory.readByte]
  | cons c m ih =>
    obtain ⟨k, w⟩ := c
    simp only [Memory.insertByte]
    split
    · simp [Memory.readByte]
    · split
      · rename_i h; subst h; simp only [Memory.readByte]; split <;> simp_all
      · simp only [Memory.readByte, ih]; split <;> split <;> simp_all

theorem readByte_filter (m : Memory) (a b : Nat) :
    Memory.readByte (m.filter (fun c => decide (c.1 ≠ a))) b =
      if b = a then Config.unlistedByte else m.readByte b := by
  induction m with
  | nil => simp [Memory.readByte]
  | cons c m ih =>
    obtain ⟨k, w⟩ := c
    by_cases hk : k = a
    · rw [List.filter_cons_of_neg (by simp [hk]), ih]
      simp only [Memory.readByte]; split <;> simp_all
    · rw [List.filter_cons_of_pos (by simp [hk])]
      simp only [Memory.readByte, ih]; split <;> split <;> simp_all

/-- Everything a write does: the cell written reads as the byte written, every other cell as before,
in every memory, canonical or not. -/
theorem readByte_writeByte (m : Memory) (a b : Nat) (v : Byte) :
    (m.writeByte a v).readByte b = if b = a then v else m.readByte b := by
  unfold Memory.writeByte
  split
  · rename_i h; rw [readByte_filter, h]
  · exact readByte_insertByte m a b v

@[simp] theorem readByte_writeByte_same (m : Memory) (a : Nat) (v : Byte) :
    (m.writeByte a v).readByte a = v := by simp [readByte_writeByte]

@[simp] theorem readByte_writeByte_ne (m : Memory) (a b : Nat) (v : Byte) (h : b ≠ a) :
    (m.writeByte a v).readByte b = m.readByte b := by simp [readByte_writeByte, h]

theorem mem_insertByte {m : Memory} {a : Nat} {v : Byte} {c : Host.Cell}
    (h : c ∈ m.insertByte a v) : c = (a, v) ∨ c ∈ m := by
  induction m with
  | nil => simpa [Memory.insertByte] using h
  | cons d m ih =>
    obtain ⟨k, w⟩ := d
    simp only [Memory.insertByte] at h
    split at h
    · simpa using h
    · split at h
      · rcases List.mem_cons.1 h with h | h
        · exact .inl h
        · exact .inr (List.mem_cons_of_mem _ h)
      · rcases List.mem_cons.1 h with h | h
        · exact .inr (h ▸ List.mem_cons_self)
        · rcases ih h with h | h
          · exact .inl h
          · exact .inr (List.mem_cons_of_mem _ h)

theorem pairwise_insertByte (m : Memory) (a : Nat) (v : Byte)
    (h : m.Pairwise (fun c d => c.1 < d.1)) :
    (m.insertByte a v).Pairwise (fun c d => c.1 < d.1) := by
  induction m with
  | nil => simp [Memory.insertByte]
  | cons d m ih =>
    obtain ⟨k, w⟩ := d
    obtain ⟨hk, hm⟩ := List.pairwise_cons.1 h
    simp only [Memory.insertByte]
    split
    · rename_i hlt
      refine List.pairwise_cons.2 ⟨fun c hc => ?_, h⟩
      rcases List.mem_cons.1 hc with rfl | hc
      · exact hlt
      · exact Nat.lt_trans hlt (hk c hc)
    · split
      · rename_i heq; subst heq; exact List.pairwise_cons.2 ⟨hk, hm⟩
      · refine List.pairwise_cons.2 ⟨fun c hc => ?_, ih hm⟩
        rcases mem_insertByte hc with rfl | hc
        · simp only; omega
        · exact hk c hc

/-- A write at an address of the machine keeps the canonical form. -/
theorem writeByte_keeps_wf (m : Memory) (a : Nat) (v : Byte) (ha : a ≤ 255) (h : m.wf) :
    (m.writeByte a v).wf := by
  unfold Memory.writeByte
  split
  · exact ⟨h.1.filter _, fun c hc => h.2 c (List.mem_of_mem_filter hc)⟩
  · rename_i hv
    refine ⟨pairwise_insertByte m a v h.1, fun c hc => ?_⟩
    rcases mem_insertByte hc with rfl | hc
    · exact ⟨ha, hv⟩
    · exact h.2 c hc

/-- Everything MemWrite can do: within 0 to 255 it writes one cell, else it raises. -/
theorem memWrite_cases (s : State) (a : Nat) (v : Byte) :
    (a ≤ 255 ∧ memWrite s a v = .ok { s with mem := s.mem.writeByte a v }) ∨
    (255 < a ∧ memWrite s a v = .error ⟨.outOfRangeMemory, a⟩) := by
  unfold memWrite
  split
  · exact .inl ⟨‹_›, rfl⟩
  · exact .inr ⟨by omega, rfl⟩

theorem memWrite_byte (s : State) (a v : Byte) :
    memWrite s a.toNat v = .ok { s with mem := s.mem.writeByte a.toNat v } :=
  if_pos (by have := a.isLt; omega)

theorem memRead_byte (s : State) (a : Byte) : memRead s a.toNat = .ok (s.mem.readByte a.toNat) :=
  if_pos (by have := a.isLt; omega)

theorem memWrite_keeps_wf {s t : State} {a : Nat} {v : Byte} (h : s.mem.wf)
    (ht : memWrite s a v = .ok t) : t.mem.wf := by
  unfold memWrite at ht
  split at ht
  · cases ht; exact writeByte_keeps_wf _ _ _ ‹_› h
  · cases ht

theorem hostWrite_keeps_wf (s : State) (a : Nat) (v : Byte) (h : s.mem.wf) :
    (hostWrite s a v).mem.wf := by
  unfold hostWrite
  split
  · exact memWrite_keeps_wf h ‹_›
  · exact h

theorem hostStore_keeps_wf (vs : List Byte) (s : State) (a : Nat) (h : s.mem.wf) :
    (hostStore s a vs).mem.wf := by
  induction vs generalizing s a with
  | nil => exact h
  | cons v vs ih => exact ih _ _ (hostWrite_keeps_wf s a v h)

/-- A loaded memory keeps the canonical form. -/
theorem hostLoad_keeps_wf {s t : State} {img : List Byte} (h : s.mem.wf)
    (ht : hostLoad s img = some t) : t.mem.wf := by
  unfold hostLoad at ht
  split at ht
  · cases ht; exact hostStore_keeps_wf img s 0 h
  · cases ht

/-- A memory built from its cells is in canonical form. -/
theorem ofCells_wf (f : Nat → Byte) : (Memory.ofCells f).wf := by
  constructor
  · unfold Memory.ofCells
    rw [List.pairwise_filterMap]
    refine List.pairwise_lt_range.imp ?_
    intro a b hab c hc d hd
    split at hc <;> split at hd <;> simp_all
    subst hc hd; exact hab
  · intro c hc
    unfold Memory.ofCells at hc
    obtain ⟨a, ha, hf⟩ := List.mem_filterMap.1 hc
    have := List.mem_range.1 ha
    split at hf
    · cases hf
    · cases hf; exact ⟨by simp only; omega, ‹_›⟩

theorem reset_memory_wf : State.reset.mem.wf := by decide

end Sys2Proof.Machine
end

