-- ==== Sys2Proof/Laws/State.lean ====
section
/-! SUPPORT. One lemma per field per update of State, true by rfl, so that no proof unfolds a record
update; and what the register accessors read back. -/

namespace Sys2Proof.Machine

/-! ## setReg -/
@[simp] theorem State.setReg_mem (s : State) (r : RegIx) (v : Byte) : (s.setReg r v).mem = s.mem := rfl
@[simp] theorem State.setReg_pc (s : State) (r : RegIx) (v : Byte) : (s.setReg r v).pc = s.pc := rfl
@[simp] theorem State.setReg_flag (s : State) (r : RegIx) (v : Byte) : (s.setReg r v).flag = s.flag := rfl
@[simp] theorem State.setReg_status (s : State) (r : RegIx) (v : Byte) : (s.setReg r v).status = s.status := rfl
@[simp] theorem State.setReg_fault (s : State) (r : RegIx) (v : Byte) : (s.setReg r v).fault = s.fault := rfl
@[simp] theorem State.setReg_out (s : State) (r : RegIx) (v : Byte) : (s.setReg r v).out = s.out := rfl

@[simp] theorem State.getReg_setReg_same (s : State) (r : RegIx) (v : Byte) :
    (s.setReg r v).getReg r = v := by
  simp [State.getReg, State.setReg]

@[simp] theorem State.getReg_setReg_ne (s : State) (r q : RegIx) (v : Byte) (h : q ≠ r) :
    (s.setReg r v).getReg q = s.getReg q := by
  have h' : r.val ≠ q.val := fun e => h (Fin.ext e.symm)
  simp [State.getReg, State.setReg, h']

theorem State.getReg_setReg (s : State) (r q : RegIx) (v : Byte) :
    (s.setReg r v).getReg q = if q = r then v else s.getReg q := by
  by_cases h : q = r
  · subst h; simp
  · simp [h]

/-! ## setPc -/
@[simp] theorem State.setPc_mem (s : State) (n : Nat) : (s.setPc n).mem = s.mem := rfl
@[simp] theorem State.setPc_x (s : State) (n : Nat) : (s.setPc n).x = s.x := rfl
@[simp] theorem State.setPc_pc (s : State) (n : Nat) : (s.setPc n).pc = n := rfl
@[simp] theorem State.setPc_flag (s : State) (n : Nat) : (s.setPc n).flag = s.flag := rfl
@[simp] theorem State.setPc_status (s : State) (n : Nat) : (s.setPc n).status = s.status := rfl
@[simp] theorem State.setPc_fault (s : State) (n : Nat) : (s.setPc n).fault = s.fault := rfl
@[simp] theorem State.setPc_out (s : State) (n : Nat) : (s.setPc n).out = s.out := rfl
@[simp] theorem State.getReg_setPc (s : State) (n : Nat) (r : RegIx) : (s.setPc n).getReg r = s.getReg r := rfl

/-! ## autoAdvance -/
@[simp] theorem State.autoAdvance_mem (s : State) (ir : Byte) : (s.autoAdvance ir).mem = s.mem := rfl
@[simp] theorem State.autoAdvance_x (s : State) (ir : Byte) : (s.autoAdvance ir).x = s.x := rfl
@[simp] theorem State.autoAdvance_pc (s : State) (ir : Byte) : (s.autoAdvance ir).pc = s.pc + 1 + operandCount ir := rfl
@[simp] theorem State.autoAdvance_flag (s : State) (ir : Byte) : (s.autoAdvance ir).flag = s.flag := rfl
@[simp] theorem State.autoAdvance_status (s : State) (ir : Byte) : (s.autoAdvance ir).status = s.status := rfl
@[simp] theorem State.autoAdvance_fault (s : State) (ir : Byte) : (s.autoAdvance ir).fault = s.fault := rfl
@[simp] theorem State.autoAdvance_out (s : State) (ir : Byte) : (s.autoAdvance ir).out = s.out := rfl
@[simp] theorem State.getReg_autoAdvance (s : State) (ir : Byte) (r : RegIx) : (s.autoAdvance ir).getReg r = s.getReg r := rfl

/-! ## setFlag -/
@[simp] theorem State.setFlag_mem (s : State) (v : Bool) : (s.setFlag v).mem = s.mem := rfl
@[simp] theorem State.setFlag_x (s : State) (v : Bool) : (s.setFlag v).x = s.x := rfl
@[simp] theorem State.setFlag_pc (s : State) (v : Bool) : (s.setFlag v).pc = s.pc := rfl
@[simp] theorem State.setFlag_flag (s : State) (v : Bool) : (s.setFlag v).flag = v := rfl
@[simp] theorem State.setFlag_status (s : State) (v : Bool) : (s.setFlag v).status = s.status := rfl
@[simp] theorem State.setFlag_fault (s : State) (v : Bool) : (s.setFlag v).fault = s.fault := rfl
@[simp] theorem State.setFlag_out (s : State) (v : Bool) : (s.setFlag v).out = s.out := rfl
@[simp] theorem State.getReg_setFlag (s : State) (v : Bool) (r : RegIx) : (s.setFlag v).getReg r = s.getReg r := rfl

/-! ## emit -/
@[simp] theorem State.emit_mem (s : State) (v : Byte) : (s.emit v).mem = s.mem := rfl
@[simp] theorem State.emit_x (s : State) (v : Byte) : (s.emit v).x = s.x := rfl
@[simp] theorem State.emit_pc (s : State) (v : Byte) : (s.emit v).pc = s.pc := rfl
@[simp] theorem State.emit_flag (s : State) (v : Byte) : (s.emit v).flag = s.flag := rfl
@[simp] theorem State.emit_status (s : State) (v : Byte) : (s.emit v).status = s.status := rfl
@[simp] theorem State.emit_fault (s : State) (v : Byte) : (s.emit v).fault = s.fault := rfl
@[simp] theorem State.emit_out (s : State) (v : Byte) : (s.emit v).out = s.out ++ [v] := rfl
@[simp] theorem State.getReg_emit (s : State) (v : Byte) (r : RegIx) : (s.emit v).getReg r = s.getReg r := rfl

/-! ## halt -/
@[simp] theorem State.halt_mem (s : State) : s.halt.mem = s.mem := rfl
@[simp] theorem State.halt_x (s : State) : s.halt.x = s.x := rfl
@[simp] theorem State.halt_pc (s : State) : s.halt.pc = s.pc := rfl
@[simp] theorem State.halt_flag (s : State) : s.halt.flag = s.flag := rfl
@[simp] theorem State.halt_status (s : State) : s.halt.status = .halted := rfl
@[simp] theorem State.halt_fault (s : State) : s.halt.fault = s.fault := rfl
@[simp] theorem State.halt_out (s : State) : s.halt.out = s.out := rfl
@[simp] theorem State.getReg_halt (s : State) (r : RegIx) : s.halt.getReg r = s.getReg r := rfl

/-! ## takeFault -/
@[simp] theorem takeFault_mem (s : State) (r : Raised) : (takeFault s r).mem = s.mem := rfl
@[simp] theorem takeFault_x (s : State) (r : Raised) : (takeFault s r).x = s.x := rfl
@[simp] theorem takeFault_pc (s : State) (r : Raised) : (takeFault s r).pc = s.pc := rfl
@[simp] theorem takeFault_flag (s : State) (r : Raised) : (takeFault s r).flag = s.flag := rfl
@[simp] theorem takeFault_status (s : State) (r : Raised) : (takeFault s r).status = .faulted := rfl
@[simp] theorem takeFault_fault (s : State) (r : Raised) :
    (takeFault s r).fault = some ⟨r.cause, faultCode r.cause, s.pc, opcodeAtPc s, r.value⟩ := rfl
@[simp] theorem takeFault_out (s : State) (r : Raised) : (takeFault s r).out = s.out := rfl
@[simp] theorem getReg_takeFault (s : State) (r : Raised) (q : RegIx) : (takeFault s r).getReg q = s.getReg q := rfl

/-! ## decSp, incSp -/
@[simp] theorem State.decSp_mem (s : State) : s.decSp.mem = s.mem := rfl
@[simp] theorem State.decSp_pc (s : State) : s.decSp.pc = s.pc := rfl
@[simp] theorem State.decSp_flag (s : State) : s.decSp.flag = s.flag := rfl
@[simp] theorem State.decSp_status (s : State) : s.decSp.status = s.status := rfl
@[simp] theorem State.decSp_fault (s : State) : s.decSp.fault = s.fault := rfl
@[simp] theorem State.decSp_out (s : State) : s.decSp.out = s.out := rfl
@[simp] theorem State.incSp_mem (s : State) : s.incSp.mem = s.mem := rfl
@[simp] theorem State.incSp_pc (s : State) : s.incSp.pc = s.pc := rfl
@[simp] theorem State.incSp_flag (s : State) : s.incSp.flag = s.flag := rfl
@[simp] theorem State.incSp_status (s : State) : s.incSp.status = s.status := rfl
@[simp] theorem State.incSp_fault (s : State) : s.incSp.fault = s.fault := rfl
@[simp] theorem State.incSp_out (s : State) : s.incSp.out = s.out := rfl

/-- After the decrement the pointer is one lower, when it was not 0. -/
theorem State.decSp_sp (s : State) : (s.decSp.getReg 7).toNat = (s.getReg 7).toNat - 1 := by
  have := (s.getReg 7).isLt
  simp only [State.decSp, State.sp, State.getReg_setReg_same, BitVec.toNat_ofNat]
  omega

/-- After the increment the pointer is one higher, modulo 256. -/
theorem State.incSp_sp (s : State) : (s.incSp.getReg 7).toNat = ((s.getReg 7).toNat + 1) % 256 := by
  simp [State.incSp, State.sp]

@[simp] theorem State.getReg_decSp_ne (s : State) (r : RegIx) (h : r ≠ 7) :
    s.decSp.getReg r = s.getReg r := by
  simp [State.decSp, h]

@[simp] theorem State.getReg_incSp_ne (s : State) (r : RegIx) (h : r ≠ 7) :
    s.incSp.getReg r = s.getReg r := by
  simp [State.incSp, h]

end Sys2Proof.Machine
end

