-- ==== Sys2Proof/Laws/Ops.lean ====
section
/-! SUPPORT. One lemma per shared operation that says everything it can do. -/

namespace Sys2Proof.Machine

/-! ## Operands -/

/-- A register operand names the register of its whole value, or raises with that value. -/
theorem checkReg_cases (a : Byte) :
    (∃ r : RegIx, a.toNat = r.val ∧ checkReg a = .ok r) ∨
    (7 < a.toNat ∧ checkReg a = .error ⟨.outOfRangeRegister, a.toNat⟩) := by
  unfold checkReg
  split
  · exact .inl ⟨_, rfl, rfl⟩
  · exact .inr ⟨by omega, rfl⟩

theorem regByte_toNat (r : RegIx) : (regByte r).toNat = r.val := by
  have := r.isLt
  simp only [regByte, BitVec.toNat_ofNat]; omega

@[simp] theorem checkReg_regByte (r : RegIx) : checkReg (regByte r) = .ok r := by
  have h := regByte_toNat r
  have := r.isLt
  rcases checkReg_cases (regByte r) with ⟨q, hq, h'⟩ | ⟨hq, -⟩
  · rw [h']; congr 1; exact Fin.ext (by omega)
  · omega

theorem checkReg_above {a : Byte} (h : 7 < a.toNat) :
    checkReg a = .error ⟨.outOfRangeRegister, a.toNat⟩ := by
  rcases checkReg_cases a with ⟨r, hr, -⟩ | ⟨-, h'⟩
  · have := r.isLt; omega
  · exact h'

/-- A byte of 0 to 7 is the operand byte of a register. -/
theorem eq_regByte {a : Byte} (h : a.toNat ≤ 7) : ∃ r : RegIx, a = regByte r :=
  ⟨⟨a.toNat, by omega⟩, by simp [regByte]⟩

@[simp] theorem regFault_regByte (r : RegIx) : regFault (regByte r) = none := by
  have := regByte_toNat r
  have := r.isLt
  unfold regFault; split
  · omega
  · rfl

theorem regFault_above {a : Byte} (h : 7 < a.toNat) :
    regFault a = some ⟨.outOfRangeRegister, a.toNat⟩ := if_pos h

/-- The checked index and the matrix's entry for it say the same. -/
theorem checkReg_regFault (a : Byte) :
    (∃ r : RegIx, a = regByte r ∧ checkReg a = .ok r ∧ regFault a = none) ∨
    (7 < a.toNat ∧ checkReg a = .error ⟨.outOfRangeRegister, a.toNat⟩ ∧
      regFault a = some ⟨.outOfRangeRegister, a.toNat⟩) := by
  by_cases h : 7 < a.toNat
  · exact .inr ⟨h, checkReg_above h, regFault_above h⟩
  · obtain ⟨r, rfl⟩ := eq_regByte (by omega : a.toNat ≤ 7)
    exact .inl ⟨r, rfl, checkReg_regByte r, regFault_regByte r⟩

/-! ## Commit and bind -/

@[simp] theorem commit_ok (s t : State) : commit s (.ok t) = .next t := rfl
@[simp] theorem commit_error (s : State) (r : Raised) :
    commit s (.error r) = .next (takeFault s r) := rfl
@[simp] theorem commit_pure (s t : State) : commit s (pure t) = .next t := rfl

@[simp] theorem bind_ok {α β : Type} (a : α) (f : α → Except Raised β) :
    ((Except.ok a : Except Raised α) >>= f) = f a := rfl
@[simp] theorem bind_error {α β : Type} (r : Raised) (f : α → Except Raised β) :
    ((Except.error r : Except Raised α) >>= f) = .error r := rfl

/-- A committed cycle always gives a next state: what it computed, or the fault it raised. -/
theorem commit_cases (s : State) (c : Except Raised State) :
    (∃ t, c = .ok t ∧ commit s c = .next t) ∨
    (∃ r, c = .error r ∧ commit s c = .next (takeFault s r)) := by
  cases c with
  | ok t => exact .inl ⟨t, rfl, rfl⟩
  | error r => exact .inr ⟨r, rfl, rfl⟩

/-! ## The stack -/

/-- The check of a push and the matrix's entry for it say the same. -/
theorem checkPush_cases (s : State) :
    (0 < (s.getReg 7).toNat ∧ checkPush s = .ok () ∧ pushFault s = none) ∨
    (s.getReg 7 = 0 ∧ checkPush s = .error ⟨.stackPointerUnderflow, 0⟩ ∧
      pushFault s = some ⟨.stackPointerUnderflow, 0⟩) := by
  unfold checkPush pushFault State.sp
  by_cases h : s.getReg 7 = 0
  · exact .inr ⟨h, if_pos h, if_pos (by rw [h]; rfl)⟩
  · have h' : (s.getReg 7).toNat ≠ 0 := fun e => h (BitVec.eq_of_toNat_eq (by simpa using e))
    exact .inl ⟨by omega, if_neg h, if_neg h'⟩

@[simp] theorem loadTop_eq (s : State) :
    loadTop s = .ok (s.mem.readByte (s.getReg 7).toNat) := memRead_byte s s.sp

@[simp] theorem storeTop_eq (s : State) (v : Byte) :
    storeTop s v = .ok { s with mem := s.mem.writeByte (s.getReg 7).toNat v } :=
  memWrite_byte s s.sp v

/-! ## Fetch -/

/-- A fetch at 253 or below reads its three bytes; above, it raises the first address out of range. -/
theorem fetch_cases (s : State) :
    (s.pc ≤ 253 ∧ fetch s = .ok ⟨s.mem.readByte s.pc, s.mem.readByte (s.pc + 1),
      s.mem.readByte (s.pc + 2)⟩) ∨
    (253 < s.pc ∧ fetch s = .error ⟨.outOfRangeMemory, if 255 < s.pc then s.pc else 256⟩) := by
  unfold fetch memRead
  by_cases h0 : s.pc ≤ 255 <;> by_cases h1 : s.pc + 1 ≤ 255 <;> by_cases h2 : s.pc + 2 ≤ 255
  · exact .inl ⟨by omega, by simp only [h0, h1, h2, if_true]; rfl⟩
  · refine .inr ⟨by omega, ?_⟩
    have : s.pc + 2 = 256 := by omega
    rw [if_neg (by omega : ¬ 255 < s.pc)]
    simp [h0, h1, h2]; omega
  · omega
  · refine .inr ⟨by omega, ?_⟩
    rw [if_neg (by omega : ¬ 255 < s.pc)]
    simp [h0, h1]; omega
  · omega
  · omega
  · omega
  · refine .inr ⟨by omega, ?_⟩
    rw [if_pos (by omega : 255 < s.pc)]
    simp [h0]

/-! ## Placing an instruction -/

/-- Placing an instruction for the next fetch keeps the canonical form. -/
theorem withFetchWord_keeps_wf (s : State) (nbits w : Nat) (h : s.mem.wf) :
    (s.withFetchWord nbits w).mem.wf := hostStore_keeps_wf _ s _ h

end Sys2Proof.Machine
end

