-- ==== Sys2Proof/Laws/Exec.lean ====
section
/-! SUPPORT. Said once: everything `exec` can do. Where no fatal condition applies, `Effect` gives the
next state of each legal form; where one applies, the fault is taken. -/

namespace Sys2Proof.Machine

/-- The next state of an instruction that raises no fatal condition. -/
inductive Effect (s : State) : Instr → State → Prop where
  | hlt : Effect s .hlt (s.autoAdvance 0x01).halt
  | ret : Effect s .ret (s.setPc (s.mem.readByte (s.getReg 7).toNat).toNat).incSp
  | push (r : RegIx) (h : 0 < (s.getReg 7).toNat) :
      Effect s (.push (regByte r))
        (({ s.decSp with mem := s.mem.writeByte (s.decSp.getReg 7).toNat (s.decSp.getReg r) } :
          State).autoAdvance 0x45)
  | pop (r : RegIx) :
      Effect s (.pop (regByte r))
        ((s.setReg r (s.mem.readByte (s.getReg 7).toNat)).incSp.autoAdvance 0x46)
  | prn (r : RegIx) : Effect s (.prn (regByte r)) ((s.emit (s.getReg r)).autoAdvance 0x47)
  | call (r : RegIx) (h : 0 < (s.getReg 7).toNat) :
      Effect s (.call (regByte r))
        { s.decSp with
          mem := s.mem.writeByte (s.decSp.getReg 7).toNat (BitVec.ofNat 8 (s.pc + 2))
          pc := (s.decSp.getReg r).toNat }
  | jmp (r : RegIx) : Effect s (.jmp (regByte r)) (s.setPc (s.getReg r).toNat)
  | jeqTaken (r : RegIx) (h : s.flag = true) :
      Effect s (.jeq (regByte r)) (s.setPc (s.getReg r).toNat)
  | jeqUntaken (a : Byte) (h : s.flag = false) : Effect s (.jeq a) (s.setPc (s.pc + 2))
  | jneTaken (r : RegIx) (h : s.flag = false) :
      Effect s (.jne (regByte r)) (s.setPc (s.getReg r).toNat)
  | jneUntaken (a : Byte) (h : s.flag = true) : Effect s (.jne a) (s.setPc (s.pc + 2))
  | ldi (r : RegIx) (imm : Byte) :
      Effect s (.ldi (regByte r) imm) ((s.setReg r imm).autoAdvance 0x82)
  | add (q r : RegIx) :
      Effect s (.add (regByte q) (regByte r))
        ((s.setReg q (aluAdd (s.getReg q) (s.getReg r))).autoAdvance 0xA0)
  | mul (q r : RegIx) :
      Effect s (.mul (regByte q) (regByte r))
        ((s.setReg q (aluMul (s.getReg q) (s.getReg r))).autoAdvance 0xA2)
  | cmp (q r : RegIx) :
      Effect s (.cmp (regByte q) (regByte r))
        ((s.setFlag (compareEqual (s.getReg q) (s.getReg r))).autoAdvance 0xA7)

/-- Everything `exec` can do: take the fatal condition the matrix gives, or have the instruction's
effect. Only CALL needs the pc to be where instructions execute. -/
theorem exec_cases (i : Instr) (s : State) (hp : s.pc ≤ 253 ∨ ∀ a, i ≠ .call a) :
    (∃ r, ownFault i s = some r ∧ exec i s = .next (takeFault s r)) ∨
    (∃ t, ownFault i s = none ∧ exec i s = .next t ∧ Effect s i t) := by
  cases i with
  | hlt => exact .inr ⟨_, rfl, rfl, .hlt⟩
  | ret => exact .inr ⟨_, rfl, by simp only [exec, execRet, loadTop_eq]; rfl, .ret⟩
  | push a =>
    rcases checkPush_cases s with ⟨h, h1, h2⟩ | ⟨-, h1, h2⟩
    · rcases checkReg_regFault a with ⟨r, rfl, h3, h4⟩ | ⟨-, h3, h4⟩
      · refine .inr ⟨_, by simp [ownFault, h2], ?_, .push r h⟩
        simp only [exec, execPush, h1, h3, bind_ok, storeTop_eq]; rfl
      · exact .inl ⟨_, by simp [ownFault, h2, h4]; rfl, by simp [exec, execPush, h1, h3]⟩
    · exact .inl ⟨_, by simp [ownFault, h2]; rfl, by simp [exec, execPush, h1]⟩
  | pop a =>
    rcases checkReg_regFault a with ⟨r, rfl, h3, h4⟩ | ⟨-, h3, h4⟩
    · refine .inr ⟨_, h4, ?_, .pop r⟩
      simp only [exec, execPop, h3, bind_ok, loadTop_eq]; rfl
    · exact .inl ⟨_, h4, by simp [exec, execPop, h3]⟩
  | prn a =>
    rcases checkReg_regFault a with ⟨r, rfl, h3, h4⟩ | ⟨-, h3, h4⟩
    · exact .inr ⟨_, h4, by simp only [exec, execPrn, h3, bind_ok]; rfl, .prn r⟩
    · exact .inl ⟨_, h4, by simp [exec, execPrn, h3]⟩
  | call a =>
    have hc : s.pc ≤ 253 := hp.resolve_right fun h => h a rfl
    rcases checkPush_cases s with ⟨h, h1, h2⟩ | ⟨-, h1, h2⟩
    · rcases checkReg_regFault a with ⟨r, rfl, h3, h4⟩ | ⟨-, h3, h4⟩
      · refine .inr ⟨_, by simp [ownFault, h2], ?_, .call r h⟩
        simp only [exec, execCall, hc, if_true, h1, h3, bind_ok, storeTop_eq]; rfl
      · exact .inl ⟨_, by simp [ownFault, h2, h4]; rfl, by simp [exec, execCall, hc, h1, h3]⟩
    · exact .inl ⟨_, by simp [ownFault, h2]; rfl, by simp [exec, execCall, hc, h1]⟩
  | jmp a =>
    rcases checkReg_regFault a with ⟨r, rfl, h3, h4⟩ | ⟨-, h3, h4⟩
    · exact .inr ⟨_, h4, by simp only [exec, execJmp, jumpReg, h3, bind_ok]; rfl, .jmp r⟩
    · exact .inl ⟨_, h4, by simp [exec, execJmp, jumpReg, h3]⟩
  | jeq a =>
    cases hf : s.flag with
    | false =>
      exact .inr ⟨_, by simp [ownFault, hf], by simp [exec, execJeq, jumpIf, condEq, hf]; rfl,
        .jeqUntaken a hf⟩
    | true =>
      rcases checkReg_regFault a with ⟨r, rfl, h3, h4⟩ | ⟨-, h3, h4⟩
      · exact .inr ⟨_, by simp [ownFault, hf],
          by simp [exec, execJeq, jumpIf, jumpReg, condEq, hf]; rfl, .jeqTaken r hf⟩
      · exact .inl ⟨_, by simp [ownFault, hf, h4]; rfl,
          by simp [exec, execJeq, jumpIf, jumpReg, condEq, hf, h3]⟩
  | jne a =>
    cases hf : s.flag with
    | true =>
      exact .inr ⟨_, by simp [ownFault, hf], by simp [exec, execJne, jumpIf, condNe, hf]; rfl,
        .jneUntaken a hf⟩
    | false =>
      rcases checkReg_regFault a with ⟨r, rfl, h3, h4⟩ | ⟨-, h3, h4⟩
      · exact .inr ⟨_, by simp [ownFault, hf],
          by simp [exec, execJne, jumpIf, jumpReg, condNe, hf]; rfl, .jneTaken r hf⟩
      · exact .inl ⟨_, by simp [ownFault, hf, h4]; rfl,
          by simp [exec, execJne, jumpIf, jumpReg, condNe, hf, h3]⟩
  | ldi a imm =>
    rcases checkReg_regFault a with ⟨r, rfl, h3, h4⟩ | ⟨-, h3, h4⟩
    · exact .inr ⟨_, h4, by simp only [exec, execLdi, h3, bind_ok]; rfl, .ldi r imm⟩
    · exact .inl ⟨_, h4, by simp [exec, execLdi, h3]⟩
  | add a b =>
    rcases checkReg_regFault a with ⟨q, rfl, h3, h4⟩ | ⟨-, h3, h4⟩
    · rcases checkReg_regFault b with ⟨r, rfl, h5, h6⟩ | ⟨-, h5, h6⟩
      · exact .inr ⟨_, by simp [ownFault], by simp only [exec, execAdd, h3, h5, bind_ok]; rfl,
          .add q r⟩
      · exact .inl ⟨_, by simp [ownFault, h6]; rfl, by simp [exec, execAdd, h5]⟩
    · exact .inl ⟨_, by simp [ownFault, h4]; rfl, by simp [exec, execAdd, h3]⟩
  | mul a b =>
    rcases checkReg_regFault a with ⟨q, rfl, h3, h4⟩ | ⟨-, h3, h4⟩
    · rcases checkReg_regFault b with ⟨r, rfl, h5, h6⟩ | ⟨-, h5, h6⟩
      · exact .inr ⟨_, by simp [ownFault], by simp only [exec, execMul, h3, h5, bind_ok]; rfl,
          .mul q r⟩
      · exact .inl ⟨_, by simp [ownFault, h6]; rfl, by simp [exec, execMul, h5]⟩
    · exact .inl ⟨_, by simp [ownFault, h4]; rfl, by simp [exec, execMul, h3]⟩
  | cmp a b =>
    rcases checkReg_regFault a with ⟨q, rfl, h3, h4⟩ | ⟨-, h3, h4⟩
    · rcases checkReg_regFault b with ⟨r, rfl, h5, h6⟩ | ⟨-, h5, h6⟩
      · exact .inr ⟨_, by simp [ownFault], by simp only [exec, execCmp, h3, h5, bind_ok]; rfl,
          .cmp q r⟩
      · exact .inl ⟨_, by simp [ownFault, h6]; rfl, by simp [exec, execCmp, h5]⟩
    · exact .inl ⟨_, by simp [ownFault, h4]; rfl, by simp [exec, execCmp, h3]⟩

/-- An instruction that gives a next state is at 253 or below, or is not CALL. -/
theorem exec_next_pc {i : Instr} {s t : State} (h : exec i s = .next t) :
    s.pc ≤ 253 ∨ ∀ a, i ≠ .call a := by
  by_cases hp : s.pc ≤ 253
  · exact .inl hp
  · refine .inr fun a ha => ?_
    subst ha
    simp [exec, execCall, hp] at h

/-- Inversion: a next state of `exec` is a fault taken or the instruction's effect. -/
theorem exec_next_cases {i : Instr} {s t : State} (h : exec i s = .next t) :
    (∃ r, ownFault i s = some r ∧ t = takeFault s r) ∨ (ownFault i s = none ∧ Effect s i t) := by
  rcases exec_cases i s (exec_next_pc h) with ⟨r, hr, h'⟩ | ⟨u, hu, h', he⟩
  · rw [h] at h'; cases h'; exact .inl ⟨r, hr, rfl⟩
  · rw [h] at h'; cases h'; exact .inr ⟨hu, he⟩

end Sys2Proof.Machine
end

