-- ==== Sys2Proof/Laws/PerInstr.lean ====
section
/-! SUPPORT. The per-instruction family TableWord: an instruction's bytes, read as one word numbered as
spec/opcode_table.json numbers it, are the instruction to `decodeTableWord`. -/

namespace Sys2Proof

/-- The word of a list of bytes, the first byte least significant. -/
def wordOf : List Byte → Nat
  | [] => 0
  | b :: bs => b.toNat + 256 * wordOf bs

theorem byteAt_zero (b : Byte) (n : Nat) : byteAt (b.toNat + 256 * n) 0 = b := by
  apply BitVec.eq_of_toNat_eq
  have := b.isLt
  simp only [byteAt, Nat.mul_zero, Nat.shiftRight_zero, BitVec.toNat_ofNat]
  omega

theorem byteAt_succ (b : Byte) (n k : Nat) : byteAt (b.toNat + 256 * n) (k + 1) = byteAt n k := by
  have := b.isLt
  simp only [byteAt, Nat.shiftRight_eq_div_pow, Nat.mul_add, Nat.mul_one, Nat.add_comm (8 * k) 8,
    Nat.pow_add]
  rw [← Nat.div_div_eq_div_mul]
  congr 2
  omega

theorem byteAt_nil (k : Nat) : byteAt 0 k = 0 := by simp [byteAt]

theorem wordOf_lt (bs : List Byte) : wordOf bs < 2 ^ (8 * bs.length) := by
  induction bs with
  | nil => simp [wordOf]
  | cons b bs ih =>
    have := b.isLt
    simp only [wordOf, List.length_cons, Nat.mul_add, Nat.pow_add]
    omega

/-- A table word of a list of bytes is decoded from those bytes, zeros after them. -/
theorem decodeTableWord_wordOf (bs : List Byte) (i : Instr)
    (hd : decode (byteAt (wordOf bs) 0) (byteAt (wordOf bs) 1) (byteAt (wordOf bs) 2) = .instr i) :
    decodeTableWord (8 * bs.length) (wordOf bs) = some i := by
  simp only [decodeTableWord, Nat.mod_eq_of_lt (wordOf_lt bs), hd]

namespace Laws.TableWord

/-- The table word of the instruction's encoding decodes to the instruction. -/
def Statement (i : Instr) : Prop :=
  decodeTableWord (8 * (encode i).length) (wordOf (encode i)) = some i

theorem of_decode (i : Instr) (ir a b : Byte) (hb : wordOf (encode i) = wordOf [ir, a, b])
    (hd : decode ir a b = .instr i) : Statement i := by
  apply decodeTableWord_wordOf
  simpa only [hb, wordOf, byteAt_zero, byteAt_succ _ _ 0, byteAt_succ _ _ 1] using hd

theorem hlt : Statement .hlt := of_decode _ 0x01 0 0 rfl rfl
theorem ret : Statement .ret := of_decode _ 0x11 0 0 rfl rfl
theorem push (a : Byte) : Statement (.push a) := of_decode _ 0x45 a 0 rfl rfl
theorem pop (a : Byte) : Statement (.pop a) := of_decode _ 0x46 a 0 rfl rfl
theorem prn (a : Byte) : Statement (.prn a) := of_decode _ 0x47 a 0 rfl rfl
theorem call (a : Byte) : Statement (.call a) := of_decode _ 0x50 a 0 rfl rfl
theorem jmp (a : Byte) : Statement (.jmp a) := of_decode _ 0x54 a 0 rfl rfl
theorem jeq (a : Byte) : Statement (.jeq a) := of_decode _ 0x55 a 0 rfl rfl
theorem jne (a : Byte) : Statement (.jne a) := of_decode _ 0x56 a 0 rfl rfl
theorem ldi (a imm : Byte) : Statement (.ldi a imm) := of_decode _ 0x82 a imm rfl rfl
theorem add (a b : Byte) : Statement (.add a b) := of_decode _ 0xA0 a b rfl rfl
theorem mul (a b : Byte) : Statement (.mul a b) := of_decode _ 0xA2 a b rfl rfl
theorem cmp (a b : Byte) : Statement (.cmp a b) := of_decode _ 0xA7 a b rfl rfl

end Laws.TableWord

end Sys2Proof
end

