-- ==== Sys2Proof/Tests/Slice0.lean ====
section
/-! SUPPORT. Tests. Expected results come from spec/95_test_vectors.md, whose section or program each
comment names, or by hand from the encoding tables of 30_encoding.md; and a witness for the hypotheses
of every statement that has them, at the boundary of each clause. -/

namespace Sys2Proof.Tests

open Sys2Proof Sys2Proof.Machine

/-! ## Helpers -/

/-- The next state of an outcome. -/
def nextOf : Host.Outcome State Fault Refusal → Option State
  | .next s => some s
  | .fault _ => none
  | .refused _ => none

/-- A small running state: bytes at the pc, two registers set, the stack pointer, the flag. -/
def bench (pc : Nat) (code : List Byte) (sets : List (RegIx × Byte)) (flag : Bool) : State :=
  sets.foldl (fun s p => s.setReg p.1 p.2)
    (hostStore { State.reset with pc := pc, flag := flag } pc code)

/-- The bench with one more memory cell written. -/
def benchMem (s : State) (a : Nat) (v : Byte) : State := hostWrite s a v

/-- One step, seen through a function of the next state. -/
def after {α : Type} (s : State) (f : State → α) : Option α := (nextOf (step s)).map f

/-- The fault record as the vectors write it: cause, value, address. -/
def faultOf (s : State) : Option (FaultCause × Nat × Nat) :=
  s.fault.map (fun r => (r.cause, r.value, r.atPc))

/-! ## WellFormed: one ill-formed term for each check -/

theorem test_wf_hlt : Instr.wellFormed .hlt = true := by decide
theorem test_wf_ret : Instr.wellFormed .ret = true := by decide
theorem test_wf_push_8 : Instr.wellFormed (.push 0x08) = false := by decide
theorem test_wf_pop_ff : Instr.wellFormed (.pop 0xFF) = false := by decide
theorem test_wf_prn_10 : Instr.wellFormed (.prn 0x10) = false := by decide
theorem test_wf_call_8 : Instr.wellFormed (.call 0x08) = false := by decide
theorem test_wf_jmp_8 : Instr.wellFormed (.jmp 0x08) = false := by decide
theorem test_wf_jeq_40 : Instr.wellFormed (.jeq 0x40) = false := by decide
theorem test_wf_jne_40 : Instr.wellFormed (.jne 0x40) = false := by decide
theorem test_wf_ldi_8 : Instr.wellFormed (.ldi 0x08 0x01) = false := by decide
theorem test_wf_ldi_imm_any : Instr.wellFormed (.ldi 0x07 0xFF) = true := by decide
theorem test_wf_add_first : Instr.wellFormed (.add 0x08 0x01) = false := by decide
theorem test_wf_add_second : Instr.wellFormed (.add 0x01 0x08) = false := by decide
theorem test_wf_mul_first : Instr.wellFormed (.mul 0x08 0x01) = false := by decide
theorem test_wf_mul_second : Instr.wellFormed (.mul 0x00 0xFF) = false := by decide
theorem test_wf_cmp_first : Instr.wellFormed (.cmp 0x08 0x01) = false := by decide
theorem test_wf_cmp_second : Instr.wellFormed (.cmp 0x07 0x08) = false := by decide

/-! ## Decode: each row's word, bit by bit from R88's binary column -/

theorem test_decode_hlt : decode 0b00000001 0x00 0x00 = .instr .hlt := by decide
theorem test_decode_ldi : decode 0b10000010 0b00000111 0b11111111 = .instr (.ldi 7 255) := by decide
theorem test_decode_prn : decode 0b01000111 0b00000011 0x00 = .instr (.prn 3) := by decide
theorem test_decode_mul : decode 0b10100010 0b00000000 0b00000001 = .instr (.mul 0 1) := by decide
theorem test_decode_push : decode 0b01000101 0b00000111 0x00 = .instr (.push 7) := by decide
theorem test_decode_pop : decode 0b01000110 0b00000010 0x00 = .instr (.pop 2) := by decide
theorem test_decode_call : decode 0b01010000 0b00000001 0x00 = .instr (.call 1) := by decide
theorem test_decode_ret : decode 0b00010001 0x00 0x00 = .instr .ret := by decide
theorem test_decode_add : decode 0b10100000 0b00000101 0b00000110 = .instr (.add 5 6) := by decide
theorem test_decode_cmp : decode 0b10100111 0b00000000 0b00000010 = .instr (.cmp 0 2) := by decide
theorem test_decode_jmp : decode 0b01010100 0b00000011 0x00 = .instr (.jmp 3) := by decide
theorem test_decode_jeq : decode 0b01010101 0b00000100 0x00 = .instr (.jeq 4) := by decide
theorem test_decode_jne : decode 0b01010110 0b00000101 0x00 = .instr (.jne 5) := by decide

/-- Section 2.5: bytes of no instruction, bit 5 clear. -/
theorem test_decode_errors :
    [0x02, 0x10, 0x44, 0x51, 0x57, 0x83, 0x84, 0xC0].all
      (fun b : Byte => decode b 0 0 = .decodeError b) = true := by decide

/-- Section 2.5: bytes of no instruction, bit 5 set. -/
theorem test_unsupported_alu_ops :
    [0x20, 0x60, 0xA1, 0xB0, 0xE0, 0xFF].all
      (fun b : Byte => decode b 0xFF 0xFF = .unsupportedAluOp b) = true := by decide

theorem test_encode_ldi : encode (.ldi 0 8) = [0x82, 0x00, 0x08] := by decide

/-- The second byte of a table word is bits 15..8, the third bits 23..16. -/
theorem test_table_word_ldi : decodeTableWord 24 0x080082 = some (.ldi 0 8) := by decide

/-- Bits above `nbits` are zero. -/
theorem test_table_word_masked : decodeTableWord 8 0x0746 = some (.pop 0) := by decide
theorem test_table_word_rejected : decodeTableWord 8 0x00 = none := by decide

/-- A placed word is what the next step runs. -/
theorem test_placed_ldi :
    after (State.reset.withFetchWord 24 0x080082) (fun t => (t.getReg 0, t.pc)) = some (8, 3) := by
  decide

/-! ## One step at a time -/

/-- 2.1: 200 + 100. -/
theorem test_add_wraps :
    after (bench 0 [0xA0, 0x00, 0x01] [(0, 200), (1, 100)] false)
      (fun t => (t.getReg 0, t.getReg 1, t.pc)) = some (44, 100, 3) := by decide

/-- 2.1: `a` is checked before `b`. -/
theorem test_add_checks_first_operand_first :
    after (bench 0 [0xA0, 0x09, 0x08] [] false) (fun t => (faultOf t, t.status, t.pc)) =
      some (some (.outOfRangeRegister, 9, 0), .faulted, 0) := by decide

/-- 2.2: 255 * 255. -/
theorem test_mul_low_byte :
    after (bench 0 [0xA2, 0x00, 0x01] [(0, 255), (1, 255)] false)
      (fun t => (t.getReg 0, t.pc)) = some (1, 3) := by decide

/-- 2.2: 17 squared. -/
theorem test_mul_same_register :
    after (bench 0 [0xA2, 0x03, 0x03] [(3, 17)] false) (fun t => t.getReg 3) = some 0x21 := by
  decide

/-- 2.2: equal and unequal. -/
theorem test_cmp_equal :
    after (bench 0 [0xA7, 0x00, 0x02] [(0, 5), (2, 5)] false) (fun t => (t.flag, t.pc)) =
      some (true, 3) := by decide
theorem test_cmp_unequal :
    after (bench 0 [0xA7, 0x00, 0x02] [(0, 4), (2, 5)] true) (fun t => t.flag) = some false := by
  decide

/-- 2.3: PUSH R7 stores the decremented pointer. -/
theorem test_push_r7 :
    after (bench 0 [0x45, 0x07] [] false)
      (fun t => (t.sp, t.mem.readByte 0xF3, t.pc)) = some (0xF3, 0xF3, 2) := by decide

/-- 2.3: underflow outranks the register index; the state is untouched. -/
theorem test_push_underflow_first :
    after (bench 0x10 [0x45, 0x09] [(7, 0)] false) (fun t => (faultOf t, t.sp, t.pc)) =
      some (some (.stackPointerUnderflow, 0, 0x10), 0, 0x10) := by decide

/-- 2.3: a pop at 0xFF wraps the pointer. -/
theorem test_pop_wraps :
    after (benchMem (bench 0 [0x46, 0x00] [(7, 0xFF)] false) 0xFF 0xC3)
      (fun t => (t.getReg 0, t.sp, t.pc)) = some (0xC3, 0x00, 2) := by decide

/-- 2.3: POP R7 loads, then increments. -/
theorem test_pop_r7 :
    after (benchMem (bench 0 [0x46, 0x07] [(7, 0xF3)] false) 0xF3 0x20)
      (fun t => t.sp) = some 0x21 := by decide

/-- 2.4: CALL at 253 pushes 255. -/
theorem test_call_at_253 :
    after (bench 0xFD [0x50, 0x01] [(1, 0x40)] false)
      (fun t => (t.sp, t.mem.readByte 0xF3, t.pc)) = some (0xF3, 0xFF, 0x40) := by decide

/-- 2.4: CALL R7 jumps to the decremented pointer. -/
theorem test_call_r7 :
    after (bench 0x08 [0x50, 0x07] [] false)
      (fun t => (t.mem.readByte 0xF3, t.pc)) = some (0x0A, 0xF3) := by decide

/-- 2.4: RET pops into the pc; at 0xFF the pointer wraps. -/
theorem test_ret :
    after (benchMem (bench 0x14 [0x11] [(7, 0xF2)] false) 0xF2 0x0A)
      (fun t => (t.pc, t.sp)) = some (0x0A, 0xF3) := by decide
theorem test_ret_wraps :
    after (benchMem (bench 0x14 [0x11] [(7, 0xFF)] false) 0xFF 0x07)
      (fun t => (t.pc, t.sp)) = some (0x07, 0x00) := by decide

/-- 2.4. -/
theorem test_jmp :
    after (bench 0x17 [0x54, 0x03] [(3, 0x0F)] false) (fun t => t.pc) = some 0x0F := by decide
theorem test_jmp_bad_register :
    after (bench 0x17 [0x54, 0x08] [] false) (fun t => (faultOf t, t.pc)) =
      some (some (.outOfRangeRegister, 8, 0x17), 0x17) := by decide

/-- 2.4: taken; and untaken with an operand above 7. -/
theorem test_jeq_taken :
    after (bench 0x15 [0x55, 0x04] [(4, 0x19)] true) (fun t => t.pc) = some 0x19 := by decide
theorem test_jeq_untaken_no_check :
    after (bench 0x15 [0x55, 0x40] [] false) (fun t => (t.pc, t.fault)) = some (0x17, none) := by
  decide
theorem test_jne_taken :
    after (bench 0x0F [0x56, 0x05] [(5, 0x30)] false) (fun t => t.pc) = some 0x30 := by decide
theorem test_jne_untaken_no_check :
    after (bench 0x0F [0x56, 0x40] [] true) (fun t => (t.pc, t.fault)) = some (0x11, none) := by
  decide

/-- 2.4: HLT at 253. -/
theorem test_hlt_at_253 :
    after (bench 0xFD [0x01] [] false) (fun t => (t.pc, t.status)) = some (0xFE, .halted) := by
  decide

/-- 2.5: HLT at 254 is not executed. -/
theorem test_hlt_at_254 :
    after (bench 0xFE [0x01] [] false) (fun t => (faultOf t, t.pc)) =
      some (some (.outOfRangeMemory, 256, 254), 254) := by decide

/-- 2.5: a three-byte instruction at 253 leaves the pc at 256. -/
theorem test_ldi_at_253 :
    after (bench 0xFD [0x82, 0x00, 0x08] [] false) (fun t => (t.getReg 0, t.pc, t.status)) =
      some (8, 256, .running) := by decide

/-- 2.5: the cycle at 256 faults with no opcode byte recorded. -/
theorem test_fetch_at_256 :
    after (bench 256 [] [] false) (fun t => (faultOf t, t.fault.bind FaultRecord.ir)) =
      some (some (.outOfRangeMemory, 256, 256), none) := by decide

/-- 2.6. -/
theorem test_ldi_r7 :
    after (bench 0 [0x82, 0x07, 0x00] [] false) (fun t => (t.sp, t.pc)) = some (0x00, 3) := by decide
theorem test_prn :
    after (bench 0 [0x47, 0x00] [(0, 0x48)] false) (fun t => (t.out, t.pc)) = some ([72], 2) := by
  decide
theorem test_prn_bad_register :
    after (bench 0 [0x47, 0x10] [] false) (fun t => (faultOf t, t.out)) =
      some (some (.outOfRangeRegister, 0x10, 0), []) := by decide

/-- S3: the byte 00000000 is a decode error; the whole record. -/
theorem test_decode_error_record :
    after (bench 0 [0x00] [] false) (fun t => t.fault) =
      some (some ⟨.decodeError, 1, 0, some 0x00, 0x00⟩) := by decide

/-- 2.5: A1 FF FF; the operand bytes are not examined. -/
theorem test_unsupported_record :
    after (bench 0 [0xA1, 0xFF, 0xFF] [] false) (fun t => t.fault) =
      some (some ⟨.unsupportedAluOp, 2, 0, some 0xA1, 0xA1⟩) := by decide

/-! ## Host port -/

/-- P1's first image lines. -/
theorem test_image_lines :
    imageOfLines ["10000010 # LDI R0,8".toList, "00000000".toList, "  # only a comment".toList,
      "00001000".toList, "".toList] = some [0x82, 0x00, 0x08] := by decide

/-- A short line is unstated (R247). -/
theorem test_image_short_line : imageLine "1010".toList = .unstated := by decide

theorem test_launch_reads_image :
    (launch [0x82, 0x00] (Vector.replicate 7 0x11) true (fun _ => 0x5A)).map
      (fun t => t.mem.readByte 1) = some 0x00 := by
  decide +kernel

theorem test_launch_reads_mem_init :
    (launch [0x82, 0x00] (Vector.replicate 7 0x11) true (fun _ => 0x5A)).map
      (fun t => t.mem.readByte 0xF4) = some 0x5A := by
  decide +kernel

/-- R41: at 254 the third cell is absent. -/
theorem test_trace_absent :
    (fun v : TraceView => (v.pc, v.byte0, v.byte1, v.byte2)) (trace (bench 254 [0x01] [] false)) =
      (254, some 0x01, some 0x00, none) := by decide

/-! ## Witnesses: a state and operands that meet the hypotheses of each statement, clause by clause -/

/-- IllegalOpcodesAreFatal: 0x00 and 0xC0 are opcodes of no instruction; a running state holds one. -/
theorem witness_illegal_opcode :
    (∀ i : Instr, opcode i ≠ 0x00) ∧ (∀ i : Instr, opcode i ≠ 0xFF) ∧
    (bench 253 [0xFF] [] false).status = .running ∧ (bench 253 [0xFF] [] false).pc ≤ 253 ∧
    (bench 253 [0xFF] [] false).holdsAtPc 0xFF 0x00 0x00 := by
  refine ⟨?_, ?_, by decide, by decide, by decide, by decide, by decide⟩ <;>
    · intro i; cases i <;> simp [opcode]

/-- OpcodeMapIsTheTable, DecodeEncodeAgree: a word that decodes. -/
theorem witness_decodes : decode 0xA0 0x07 0xFF = .instr (.add 0x07 0xFF) := by decide

/-- LengthFromOpcodeByte: a byte whose operand count field is 3. -/
theorem witness_count_three : (0xC0 : Byte).toNat / 64 = 3 := by decide

/-- UncountedOperandsIgnored: bytes with count 0 and 1. -/
theorem witness_counts : operandCount 0x3F = 0 ∧ operandCount 0x7F = 1 := by decide

/-- RegisterOperandNotMasked and every register-check clause: 8 and 255 are above 7, 7 is not. -/
theorem witness_operand_boundary :
    7 < (0x08 : Byte).toNat ∧ 7 < (0xFF : Byte).toNat ∧ (0x07 : Byte).toNat ≤ 7 ∧
    checkReg 0x07 = .ok 7 := ⟨by decide, by decide, by decide, rfl⟩

/-- PlacedWordIsRun. -/
theorem witness_placed :
    State.reset.pc ≤ 253 ∧ decodeTableWord 16 0x0747 = some (.prn 7) := by decide

/-- StepRunsDecodedInstruction, at the highest address that executes. -/
theorem witness_step_runs :
    (bench 253 [0x82, 0x07, 0xFF] [] true).status = .running ∧
    (bench 253 [0x82, 0x07, 0xFF] [] true).pc ≤ 253 ∧
    (bench 253 [0x82, 0x07, 0xFF] [] true).holdsAtPc 0x82 0x07 0xFF ∧
    decode 0x82 0x07 0xFF = .instr (.ldi 0x07 0xFF) := by
  refine ⟨by decide, by decide, ⟨by decide, by decide, by decide⟩, by decide⟩

/-- FetchAbove253Faults: the first faulting address and the last reachable one. -/
theorem witness_fetch_above :
    (bench 254 [] [] false).status = .running ∧ 253 < (bench 254 [] [] false).pc ∧
    (bench 256 [] [] false).status = .running ∧ 253 < (bench 256 [] [] false).pc := by decide

/-- StoppedMachineNeverChanges; HltAdvancesAndHalts, its terminal clause. -/
theorem witness_stopped :
    State.reset.halt.status ≠ .running ∧ (takeFault State.reset ⟨.decodeError, 0⟩).status ≠ .running ∧
    State.reset.halt.status = .halted ∧ step State.reset.halt = .next State.reset.halt :=
  ⟨by decide, by decide, by decide, rfl⟩

/-- HltAdvancesAndHalts, its clause at 254 and 255. -/
theorem witness_hlt_unreached :
    (bench 254 [0x01] [] false).mem.readByte 254 = 0x01 ∧
    (bench 255 [0x01] [] false).mem.readByte 255 = 0x01 ∧
    (bench 255 [0x01] [] false).status = .running ∧ (bench 255 [0x01] [] false).pc = 255 := by decide

/-- FaultMatrixHolds: one state for each cause the matrix has. -/
theorem witness_matrix :
    (bench 253 [] [(7, 0)] false).pc ≤ 253 ∧
    ownFault (.push 0x09) (bench 253 [] [(7, 0)] false) = some ⟨.stackPointerUnderflow, 0⟩ ∧
    ownFault (.call 0x08) (bench 253 [] [(7, 1)] false) = some ⟨.outOfRangeRegister, 8⟩ ∧
    ownFault (.jeq 0x40) (bench 253 [] [] true) = some ⟨.outOfRangeRegister, 0x40⟩ := by decide

/-- NoFaultOutsideMatrix, EveryStateHasNextState, DispatcherAdvancesPc: HLT, an auto-advanced and a
direct-PC instruction outside the matrix, an untaken branch with an operand above 7 among them. -/
theorem witness_outside_matrix :
    (bench 253 [] [(7, 1)] false).pc ≤ 253 ∧
    ownFault .hlt (bench 253 [] [(7, 1)] false) = none ∧
    ownFault (.push 0x07) (bench 253 [] [(7, 1)] false) = none ∧
    ownFault (.call (regByte 7)) (bench 253 [] [(7, 1)] false) = none ∧
    ownFault (.jeq 0xFF) (bench 253 [] [(7, 1)] false) = none ∧
    ownFault (.jne 0xFF) (bench 253 [] [(7, 1)] true) = none := by decide

/-- DispatcherAdvancesPc, its clauses for RET, JMP and the taken JEQ and JNE: at pc 253, with the
pointer at its top value for RET and register 7 as the target, none of them raises a condition. -/
theorem witness_targets :
    (bench 253 [] [(7, 0xFF)] false).pc ≤ 253 ∧
    ownFault .ret (bench 253 [] [(7, 0xFF)] false) = none ∧
    ownFault (.jmp (regByte 7)) (bench 253 [] [(7, 0xFF)] false) = none ∧
    ownFault (.jeq (regByte 7)) (bench 253 [] [(7, 0xFF)] true) = none ∧
    (bench 253 [] [(7, 0xFF)] true).flag = true ∧
    ownFault (.jne (regByte 7)) (bench 253 [] [(7, 0xFF)] false) = none ∧
    (bench 253 [] [(7, 0xFF)] false).flag = false := by decide

/-- RunStateTransitions, PcStaysInRange, FaultsArePrecise, OutputGrowsByPrnOnly, StepKeepsInvariant:
running states with a next state, one that runs on, one that halts, one that faults. -/
theorem witness_running_steps :
    (∃ t, step (bench 253 [0x82, 0x00, 0x08] [] false) = .next t ∧ t.status = .running ∧
      t.pc = 256) ∧
    (∃ t, step (bench 253 [0x01] [] false) = .next t ∧ t.status = .halted) ∧
    (∃ t, step (bench 0 [0x45, 0x08] [] false) = .next t ∧ t.status = .faulted) ∧
    (bench 253 [0x82, 0x00, 0x08] [] false).status = .running ∧
    (bench 0 [0x45, 0x08] [] false).status = .running ∧
    (bench 253 [0x82, 0x00, 0x08] [] false).pc ≤ 256 :=
  ⟨⟨_, rfl, by decide, by decide⟩, ⟨_, rfl, by decide⟩, ⟨_, rfl, by decide⟩, by decide, by decide,
    by decide⟩

/-- StepKeepsInvariant: the reset state meets the invariant and has a next state. -/
theorem witness_invariant : State.reset.Inv ∧ ∃ t, step State.reset = .next t := by
  refine ⟨⟨by decide, by decide, by decide, ?_⟩, _, rfl⟩
  intro r h
  cases h

/-- PushStoresBelowPointer, PushPopRoundTrip, PushCapacityIsThePointer, CallPushesReturnAddress,
CallRetRoundTrip, MemoryWrittenByPushAndCallOnly: a pointer of 1, the least that can push, with the pc
at 253; and a pointer of 0 for the underflow clause. -/
theorem witness_pointer_boundary :
    0 < ((bench 253 [] [(7, 1)] false).getReg 7).toNat ∧ (bench 253 [] [(7, 1)] false).pc ≤ 253 ∧
    1 ≤ ((bench 253 [] [(7, 1)] false).getReg 7).toNat ∧
    ((bench 253 [] [(7, 0)] false).getReg 7).toNat = 0 ∧
    (bench 253 [] [(7, 0)] false).pc ≤ 253 := by decide

/-- NextFetchSeesPushedByte: the push lands on the next opcode, then on each operand byte. -/
theorem witness_push_before_fetch :
    0 < ((bench 6 [0x45, 0x00] [(7, 9)] false).getReg 7).toNat ∧
    (bench 6 [0x45, 0x00] [(7, 9)] false).pc + 2 ≤ 253 ∧
    ((bench 6 [0x45, 0x00] [(7, 9)] false).getReg 7).toNat - 1 = 6 + 2 ∧
    ((bench 6 [0x45, 0x00] [(7, 10)] false).getReg 7).toNat - 1 = 6 + 3 ∧
    ((bench 6 [0x45, 0x00] [(7, 11)] false).getReg 7).toNat - 1 = 6 + 4 := by decide

/-- JeqJumpsWhenFlagTrue, JneJumpsWhenFlagFalse, ExactlyOneBranchTaken: both values of the flag, and an
operand above 7. -/
theorem witness_flags :
    (bench 0 [] [] true).flag = true ∧ (bench 0 [] [] false).flag = false ∧
    7 < (0x08 : Byte).toNat := by decide

/-- RegisterWritersFrame: each of the three gives a next state, the destination at 7. -/
theorem witness_register_writers :
    (∃ t, exec (.add 0x07 0x00) (bench 0 [] [] false) = .next t) ∧
    (∃ t, exec (.mul 0x07 0x00) (bench 0 [] [] false) = .next t) ∧
    (∃ t, exec (.ldi 0x07 0xFF) (bench 0 [] [] false) = .next t) ∧
    ownFault (.add 0x07 0x00) (bench 0 [] [] false) = none :=
  ⟨⟨_, rfl⟩, ⟨_, rfl⟩, ⟨_, rfl⟩, by decide⟩

/-- StackWritersFrame: a push and a call that store, and one of each that faults. -/
theorem witness_stack_writers :
    (∃ t, exec (.push 0x07) (bench 0 [] [(7, 1)] false) = .next t) ∧
    (∃ t, exec (.call 0x07) (bench 0 [] [(7, 1)] false) = .next t) ∧
    (∃ t, exec (.call 0x07) (bench 0 [] [(7, 0)] false) = .next t) ∧
    ownFault (.push 0x07) (bench 0 [] [(7, 1)] false) = none ∧
    ownFault (.call 0x07) (bench 0 [] [(7, 0)] false) ≠ none :=
  ⟨⟨_, rfl⟩, ⟨_, rfl⟩, ⟨_, rfl⟩, by decide, by decide⟩

/-- StackReadersFrame: pops and a return at the pointer's top value, and a pop that faults. -/
theorem witness_stack_readers :
    (∃ t, exec (.pop 0x07) (bench 0 [] [(7, 0xFF)] false) = .next t) ∧
    (∃ t, exec .ret (bench 0 [] [(7, 0xFF)] false) = .next t) ∧
    (∃ t, exec (.pop 0x08) (bench 0 [] [] false) = .next t) ∧
    ownFault (.pop 0x07) (bench 0 [] [(7, 0xFF)] false) = none ∧
    ownFault (.pop 0x08) (bench 0 [] [] false) ≠ none :=
  ⟨⟨_, rfl⟩, ⟨_, rfl⟩, ⟨_, rfl⟩, by decide, by decide⟩

/-- NoRegisterWritersFrame, FlagWrittenByCmpReadByBranches, MemoryWrittenByPushAndCallOnly,
OutputGrowsByPrnOnly: each of the six gives a next state. -/
theorem witness_no_register_writers :
    (∃ t, exec (.cmp 0x07 0x07) (bench 0 [] [] false) = .next t) ∧
    (∃ t, exec (.prn 0x07) (bench 0 [] [] false) = .next t) ∧
    (∃ t, exec .hlt (bench 0 [] [] false) = .next t) ∧
    (∃ t, exec (.jmp 0x07) (bench 0 [] [] false) = .next t) ∧
    (∃ t, exec (.jeq 0x07) (bench 0 [] [] false) = .next t) ∧
    (∃ t, exec (.jne 0x07) (bench 0 [] [] false) = .next t) ∧
    ownFault (.jne 0x07) (bench 0 [] [] false) = none :=
  ⟨⟨_, rfl⟩, ⟨_, rfl⟩, ⟨_, rfl⟩, ⟨_, rfl⟩, ⟨_, rfl⟩, ⟨_, rfl⟩, by decide⟩

/-- MemoryOperationsAreBounded, and the host write of MemoryWrittenByPushAndCallOnly: the last address
inside and the first outside. -/
theorem witness_memory_bounds : (255 : Nat) ≤ 255 ∧ 255 < (256 : Nat) := by decide

/-- EqualReadsEqualMemories: two memories in canonical form that read alike. -/
theorem witness_canonical_memories :
    Memory.wf [(0, 1), (255, 2)] ∧ Memory.wf (Memory.writeByte [(0, 1)] 255 2) ∧
    ∀ a, Memory.readByte [(0, 1), (255, 2)] a =
      Memory.readByte (Memory.writeByte [(0, 1)] 255 2) a :=
  ⟨by decide, by decide, fun _ => rfl⟩

/-- LoadPlacesImageFromZero, LaunchStateForEveryParameter: the longest image that loads and the
shortest that does not. -/
theorem witness_image_lengths :
    (List.replicate 256 (0x01 : Byte)).length ≤ 256 ∧
    256 < (List.replicate 257 (0x01 : Byte)).length :=
  ⟨by rw [List.length_replicate], by rw [List.length_replicate]; decide⟩

/-- LaunchStateForEveryParameter: an image that has a launch state, and one that the model gives none
(log 11). -/
theorem witness_launch :
    (launch [0x01] (Vector.replicate 7 0x00) false (fun _ => 0x00)).isSome = true ∧
    launch (List.replicate 257 0x01) (Vector.replicate 7 0x00) false (fun _ => 0x00) = none :=
  ⟨rfl, if_neg (by rw [List.length_replicate]; decide)⟩

/-- LaunchStateForEveryParameter: the last cell. -/
theorem witness_last_cell : (255 : Nat) ≤ 255 := by decide

end Sys2Proof.Tests
end

