-- ==== Sys2Proof/Proofs/Flag.lean ====
section
/-! The converse of `exec_cases`, and R35: CMP alone writes the flag, JEQ and JNE alone read it. -/

namespace Sys2Proof.Machine

/-! ## `exec` from the fault matrix and from `Effect` -/

/-- Where the matrix gives a fatal condition, `exec` takes it. -/
theorem exec_of_ownFault {i : Instr} {s : State} {r : Raised} (h : ownFault i s = some r)
    (hp : s.pc ≤ 253 ∨ ∀ a, i ≠ .call a) : exec i s = .next (takeFault s r) := by
  rcases exec_cases i s hp with ⟨q, hq, he⟩ | ⟨t, hn, -, -⟩
  · rw [h] at hq; cases hq; exact he
  · rw [h] at hn; cases hn

theorem checkPush_of_pos {s : State} (h : 0 < (s.getReg 7).toNat) : checkPush s = .ok () := by
  rcases checkPush_cases s with ⟨-, hc, -⟩ | ⟨h0, -, -⟩
  · exact hc
  · simp [h0] at h

/-- Where an instruction has an effect, `exec` gives it. -/
theorem exec_of_effect {i : Instr} {s t : State} (h : Effect s i t)
    (hp : s.pc ≤ 253 ∨ ∀ a, i ≠ .call a) : exec i s = .next t := by
  cases h with
  | hlt => rfl
  | ret => simp only [exec, execRet, loadTop_eq]; rfl
  | push r h =>
    have hc := checkPush_of_pos h
    simp only [exec, execPush, hc, checkReg_regByte, bind_ok, storeTop_eq]; rfl
  | pop r => simp only [exec, execPop, checkReg_regByte, bind_ok, loadTop_eq]; rfl
  | prn r => simp only [exec, execPrn, checkReg_regByte]; rfl
  | call r h =>
    have hpc : s.pc ≤ 253 := hp.resolve_right fun hne => hne _ rfl
    have hc := checkPush_of_pos h
    simp only [exec, execCall, if_pos hpc, hc, checkReg_regByte, bind_ok, storeTop_eq]; rfl
  | jmp r => simp only [exec, execJmp, jumpReg, checkReg_regByte]; rfl
  | jeqTaken r h => simp only [exec, execJeq, jumpIf, condEq, h, jumpReg, checkReg_regByte]; rfl
  | jeqUntaken a h => simp only [exec, execJeq, jumpIf, condEq, h]; rfl
  | jneTaken r h => simp only [exec, execJne, jumpIf, condNe, h, jumpReg, checkReg_regByte]; rfl
  | jneUntaken a h => simp only [exec, execJne, jumpIf, condNe, h]; rfl
  | ldi r imm => simp only [exec, execLdi, checkReg_regByte]; rfl
  | add q r => simp only [exec, execAdd, checkReg_regByte]; rfl
  | mul q r => simp only [exec, execMul, checkReg_regByte]; rfl
  | cmp q r => simp only [exec, execCmp, checkReg_regByte]; rfl

/-! ## The flag under each outcome (R35) -/

theorem compareEqual_iff (u v : Byte) : compareEqual u v = true ↔ u.toNat = v.toNat := by
  rw [compareEqual, decide_eq_true_iff, BitVec.toNat_inj]

@[simp] theorem takeFault_setFlag (s : State) (v : Bool) (r : Raised) :
    takeFault (s.setFlag v) r = (takeFault s r).setFlag v := rfl

@[simp] theorem State.setFlag_setFlag (s : State) (v w : Bool) :
    (s.setFlag v).setFlag w = s.setFlag w := rfl

theorem Effect.flag_eq {i : Instr} {s t : State} (h : Effect s i t) (hc : ∀ a b, i ≠ .cmp a b) :
    t.flag = s.flag := by
  cases h with
  | cmp q r => exact absurd rfl (hc _ _)
  | _ => rfl

/-- Only CMP writes the flag; a fault writes it under no instruction. -/
theorem exec_flag_eq {i : Instr} {s t : State} (h : exec i s = .next t)
    (hc : ∀ a b, i ≠ .cmp a b) : t.flag = s.flag := by
  rcases exec_next_cases h with ⟨r, -, rfl⟩ | ⟨-, he⟩
  · rfl
  · exact he.flag_eq hc

section NotABranch

variable {i : Instr} (hjeq : ∀ a, i ≠ .jeq a) (hjne : ∀ a, i ≠ .jne a)
include hjeq hjne

/-- The fault matrix reads the flag at JEQ and JNE only. -/
theorem ownFault_setFlag (s : State) (v : Bool) : ownFault i (s.setFlag v) = ownFault i s := by
  cases i with
  | jeq a => exact absurd rfl (hjeq a)
  | jne a => exact absurd rfl (hjne a)
  | _ => rfl

/-- An effect is there whatever the flag, and its state differs at most in the flag. -/
theorem Effect.setFlag_agree {s t : State} (v : Bool) (h : Effect s i t) :
    ∃ u, Effect (s.setFlag v) i u ∧ ∀ w, u.setFlag w = t.setFlag w := by
  cases h with
  | hlt => exact ⟨_, .hlt, fun _ => rfl⟩
  | ret => exact ⟨_, .ret, fun _ => rfl⟩
  | push r h => exact ⟨_, .push r h, fun _ => rfl⟩
  | pop r => exact ⟨_, .pop r, fun _ => rfl⟩
  | prn r => exact ⟨_, .prn r, fun _ => rfl⟩
  | call r h => exact ⟨_, .call r h, fun _ => rfl⟩
  | jmp r => exact ⟨_, .jmp r, fun _ => rfl⟩
  | jeqTaken | jeqUntaken => exact absurd rfl (hjeq _)
  | jneTaken | jneUntaken => exact absurd rfl (hjne _)
  | ldi r imm => exact ⟨_, .ldi r imm, fun _ => rfl⟩
  | add q r => exact ⟨_, .add q r, fun _ => rfl⟩
  | mul q r => exact ⟨_, .mul q r, fun _ => rfl⟩
  | cmp q r => exact ⟨_, .cmp q r, fun _ => rfl⟩

/-- States that differ only in the flag give outcomes that differ at most in the flag. CALL above
253, which has no next state, is the case `exec_cases` does not speak of. -/
theorem exec_setFlag_agree (s : State) (v w : Bool) :
    mapNext (·.setFlag w) (exec i (s.setFlag v)) = mapNext (·.setFlag w) (exec i s) := by
  by_cases hp : s.pc ≤ 253 ∨ ∀ a, i ≠ .call a
  · rcases exec_cases i s hp with ⟨r, hr, he⟩ | ⟨t, -, he, hEff⟩
    · have hr' := (ownFault_setFlag hjeq hjne s v).trans hr
      simp [he, exec_of_ownFault hr' hp, mapNext]
    · obtain ⟨u, hu, huw⟩ := hEff.setFlag_agree hjeq hjne v
      simp [he, exec_of_effect hu hp, mapNext, huw]
  · obtain ⟨hpc, a, rfl⟩ : ¬ s.pc ≤ 253 ∧ ∃ a, i = .call a := by simpa using hp
    simp [exec, execCall, hpc]

end NotABranch

/-- Settles O40: by the inversion of `exec` for the writes, and by comparing the two runs through
the fault matrix and `Effect` for the reads. -/
theorem flagWrittenByCmpReadByBranches : Obligations.FlagWrittenByCmpReadByBranches := by
  refine ⟨fun _ _ _ => exec_flag_eq, fun s ra rb => ?_,
    fun _ s v hjeq hjne => exec_setFlag_agree hjeq hjne s v false, fun s r => ⟨?_, ?_⟩⟩
  · exact ⟨_, exec_of_effect (.cmp ra rb) (.inr nofun), compareEqual_iff _ _⟩
  · exact exec_of_effect (.jeqTaken r rfl) (.inr nofun)
  · exact exec_of_effect (.jneTaken r rfl) (.inr nofun)

end Sys2Proof.Machine
end

