-- ==== Sys2Proof/Proofs/Reset.lean ====
section
/-! R42: the reset value of the stack pointer. -/

namespace Sys2Proof.Machine

theorem hostReset_sp (gpr : Vector Byte 7) (flag : Bool) (mem : Memory) :
    (hostReset gpr flag mem).getReg 7 = Config.spReset :=
  Vector.getElem_push_eq

/-- Settles O50: the slot that `hostReset` pushes onto the other seven is register 7. -/
theorem resetSetsStackPointer : Obligations.ResetSetsStackPointer :=
  ⟨rfl, hostReset_sp⟩

end Sys2Proof.Machine
end

