-- ==== Sys2Proof/Proofs/Encoding.lean ====
section
/-! R81 and R88: what the decoder answers, said once, and the length and classes of an opcode byte. -/

namespace Sys2Proof

/-! ## Inversion of the decoder (R90, R92, R114) -/

theorem encode_prefix_of_decodeAlu {ir a b : Byte} {i : Instr} (h : decodeAlu ir a b = .instr i) :
    encode i <+: [ir, a, b] := by
  unfold decodeAlu at h
  split at h <;> cases h <;> exact ⟨_, rfl⟩

theorem encode_prefix_of_decodeTable {ir a b : Byte} {i : Instr}
    (h : decodeTable ir a b = .instr i) : encode i <+: [ir, a, b] := by
  unfold decodeTable at h
  split at h <;> cases h <;> exact ⟨_, rfl⟩

/-- Whichever way bit 5 routes them, bytes that decode to `i` begin with the encoding of `i`. -/
theorem encode_prefix_of_decode {ir a b : Byte} {i : Instr} (h : decode ir a b = .instr i) :
    encode i <+: [ir, a, b] := by
  unfold decode at h
  split at h
  · exact encode_prefix_of_decodeAlu h
  · exact encode_prefix_of_decodeTable h

/-- An instruction is decoded only from its own whole opcode byte (R88). -/
theorem eq_opcode_of_decode {ir a b : Byte} {i : Instr} (h : decode ir a b = .instr i) :
    ir = opcode i :=
  (List.cons_prefix_cons.mp (encode_prefix_of_decode h)).1.symm

/-! ## The structural bits of an opcode byte (R80, R113) -/

theorem operandCount_eq_div (ir : Byte) : operandCount ir = ir.toNat / 64 := by
  rw [operandCount, BitVec.toNat_ushiftRight, Nat.shiftRight_eq_div_pow]

/-- Bits 7:6 of an opcode byte count the operand bytes the encoder writes (R81). -/
theorem length_operandBytes (i : Instr) : (operandBytes i).length = operandCount (opcode i) := by
  cases i <;> simp [operandBytes, operandCount, opcode]

/-- The longest formats, RI and RR, have two operand bytes (R82). -/
theorem length_operandBytes_le_two (i : Instr) : (operandBytes i).length ≤ 2 := by
  cases i <;> simp [operandBytes]

theorem aluClass_opcode_iff (i : Instr) :
    aluClass (opcode i) = true ↔ ∃ a b, i = .add a b ∨ i = .mul a b ∨ i = .cmp a b := by
  cases i with
  | add a b | mul a b | cmp a b =>
    exact iff_of_true (by simp [aluClass, opcode]) ⟨a, b, by simp⟩
  | _ => exact iff_of_false (by simp [aluClass, opcode]) (by simp)

theorem directPcClass_opcode_iff (i : Instr) :
    directPcClass (opcode i) = true ↔
      i = .ret ∨ ∃ a, i = .call a ∨ i = .jmp a ∨ i = .jeq a ∨ i = .jne a := by
  cases i with
  | ret => exact iff_of_true (by simp [directPcClass, opcode]) (.inl rfl)
  | call a | jmp a | jeq a | jne a =>
    exact iff_of_true (by simp [directPcClass, opcode]) (.inr ⟨a, by simp⟩)
  | _ => exact iff_of_false (by simp [directPcClass, opcode]) (by simp)

/-! ## The obligations -/

/-- Settles O2: each row's bytes by evaluating the map, its class by the cases of the instruction,
and the selection by the whole byte from the inversion of the decoder. -/
theorem opcodeMapIsTheTable : Obligations.OpcodeMapIsTheTable := by
  refine ⟨fun a b => ?rows, fun a b => ?bytes,
    fun i => ⟨aluClass_opcode_iff i, directPcClass_opcode_iff i⟩, fun _ _ _ _ => eq_opcode_of_decode⟩
  case rows => and_intros <;> rfl
  case bytes => and_intros <;> rfl

/-- Settles O4: bits 7:6 count the operand bytes, at most two, so a byte whose count is 3 is no
instruction's opcode byte. -/
theorem lengthFromOpcodeByte : Obligations.LengthFromOpcodeByte := by
  have hcount (i : Instr) : (operandBytes i).length = (opcode i).toNat / 64 :=
    (length_operandBytes i).trans (operandCount_eq_div _)
  refine ⟨fun i => ⟨rfl, ?_⟩, fun ir a b i h3 hd => ?_⟩
  · have hlen : (encode i).length = (operandBytes i).length + 1 := rfl
    have hle := length_operandBytes_le_two i
    have hi := hcount i
    omega
  · have hle := length_operandBytes_le_two i
    rw [hcount, ← eq_opcode_of_decode hd, h3] at hle
    omega

end Sys2Proof
end

