-- ==== Sys2Proof/Proofs/DispatchCycle.lean ====
section
/-! R80 and R113: the structural bits of an opcode byte as arithmetic on its number. The operand
count's equation, `operandCount_eq_div`, stands in `Proofs/Encoding.lean`. -/

namespace Sys2Proof

/-- A bit of a byte, as the parity of the byte's number shifted down to it. -/
theorem getLsbD_iff_div_mod (ir : Byte) (k : Nat) :
    ir.getLsbD k = true ↔ ir.toNat / 2 ^ k % 2 = 1 := by
  rw [← BitVec.testBit_toNat, Nat.testBit_eq_decide_div_mod_eq, decide_eq_true_iff]

theorem aluClass_iff_div_mod (ir : Byte) : aluClass ir = true ↔ ir.toNat / 32 % 2 = 1 :=
  getLsbD_iff_div_mod ir 5

theorem directPcClass_iff_div_mod (ir : Byte) :
    directPcClass ir = true ↔ ir.toNat / 16 % 2 = 1 :=
  getLsbD_iff_div_mod ir 4

/-- The mask `0x0F` keeps the low four bits, the remainder modulo `2 ^ 4`. -/
theorem operationId_eq_mod (ir : Byte) : operationId ir = ir.toNat % 16 := by
  rw [operationId, BitVec.toNat_and]
  exact Nat.and_two_pow_sub_one_eq_mod ir.toNat 4

/-- Settles O3: the count is a shift by six places, each class one bit of the number, and the
identifier a mask of the low four bits. -/
theorem structuralBitsAreBits : Obligations.StructuralBitsAreBits := fun ir =>
  ⟨operandCount_eq_div ir, aluClass_iff_div_mod ir, directPcClass_iff_div_mod ir,
    operationId_eq_mod ir⟩

end Sys2Proof
end

