-- ==== Sys2Proof/Proofs/Alu.lean ====
section
/-! R131 to R133: ADD, MUL and CMP. Their effects are read off `Effect`, and their two register
checks off the fault matrix. -/

namespace Sys2Proof.Machine

/-! ## Results (R135, R136) -/

@[simp] theorem toNat_aluAdd (u v : Byte) : (aluAdd u v).toNat = (u.toNat + v.toNat) % 256 := by
  simp [aluAdd]

@[simp] theorem toNat_aluMul (u v : Byte) : (aluMul u v).toNat = (u.toNat * v.toNat) % 256 := by
  simp [aluMul]

/-! ## The register frame of a write followed by the advance -/

theorem regsSameBut_setReg_autoAdvance (s : State) (r : RegIx) (v ir : Byte) :
    regsSameBut (· = r) s ((s.setReg r v).autoAdvance ir) := fun q hq => by
  rw [State.getReg_autoAdvance, State.getReg_setReg_ne s r q v hq]

/-! ## The two register checks, in order (R24, R205) -/

section TwoRegisterChecks

variable {i : Instr} {s : State} {a b : Byte}
  (hm : ownFault i s = (regFault a).or (regFault b)) (hc : ∀ c, i ≠ .call c)
include hm hc

theorem exec_first_operand_above (ha : 7 < a.toNat) :
    exec i s = .next (takeFault s ⟨.outOfRangeRegister, a.toNat⟩) := by
  have hown : ownFault i s = some ⟨.outOfRangeRegister, a.toNat⟩ := by
    rw [hm, regFault_above ha, Option.some_or]
  exact exec_of_ownFault hown (.inr hc)

theorem exec_second_operand_above (ha : a.toNat ≤ 7) (hb : 7 < b.toNat) :
    exec i s = .next (takeFault s ⟨.outOfRangeRegister, b.toNat⟩) := by
  have hown : ownFault i s = some ⟨.outOfRangeRegister, b.toNat⟩ := by
    obtain ⟨r, rfl⟩ := eq_regByte ha
    rw [hm, regFault_regByte, Option.none_or, regFault_above hb]
  exact exec_of_ownFault hown (.inr hc)

end TwoRegisterChecks

/-! ## The obligations -/

/-- Settles O19: the completing form is `Effect.add`, the faults are the matrix's. -/
theorem addWritesSumModulo256 : Obligations.AddWritesSumModulo256 := by
  refine ⟨fun _ _ => rfl, fun s ra rb => ?completes,
    fun _ _ _ => exec_first_operand_above rfl nofun,
    fun _ _ _ => exec_second_operand_above rfl nofun⟩
  case completes =>
    exact ⟨_, exec_of_effect (.add ra rb) (.inr nofun), by simp,
      regsSameBut_setReg_autoAdvance _ _ _ _, rfl, rfl, rfl, rfl, rfl, rfl⟩

/-- Settles O20: the completing form is `Effect.mul`, the faults are the matrix's. -/
theorem mulWritesProductModulo256 : Obligations.MulWritesProductModulo256 := by
  refine ⟨fun _ _ => rfl, fun s ra rb => ?completes,
    fun _ _ _ => exec_first_operand_above rfl nofun,
    fun _ _ _ => exec_second_operand_above rfl nofun⟩
  case completes =>
    exact ⟨_, exec_of_effect (.mul ra rb) (.inr nofun), by simp,
      regsSameBut_setReg_autoAdvance _ _ _ _, rfl, rfl, rfl, rfl, rfl, rfl⟩

/-- Settles O21: the completing form is `Effect.cmp`, which writes the flag and no register; the
faults are the matrix's. -/
theorem cmpSetsFlagToEquality : Obligations.CmpSetsFlagToEquality := by
  refine ⟨fun _ _ => rfl, fun s ra rb => ?completes,
    fun _ _ _ => exec_first_operand_above rfl nofun,
    fun _ _ _ => exec_second_operand_above rfl nofun⟩
  case completes =>
    exact ⟨_, exec_of_effect (.cmp ra rb) (.inr nofun), compareEqual_iff _ _,
      rfl, rfl, rfl, rfl, rfl, rfl⟩

end Sys2Proof.Machine
end

