-- ==== Sys2Proof/Proofs/ControlFlow.lean ====
section
/-! R162 and R165: JMP and HLT, with the two steps that execute nothing: of a machine that is not
running (R110), and of one whose fetch faults (R112). -/

namespace Sys2Proof.Machine

/-! ## Steps that execute nothing -/

theorem step_of_not_running {s : State} (h : s.status ≠ .running) : step s = .next s := by
  unfold step
  cases hs : s.status with
  | running => exact absurd hs h
  | halted | faulted => rfl

/-- Above 253 the fetch raises before any opcode byte is looked at. -/
theorem step_of_pc_above_253 {s : State} (hrun : s.status = .running) (hpc : 253 < s.pc) :
    step s = .next (takeFault s ⟨.outOfRangeMemory, if 255 < s.pc then s.pc else 256⟩) := by
  rcases fetch_cases s with ⟨hle, -⟩ | ⟨-, hfetch⟩
  · omega
  · simp only [step, hrun, fetchInstr, hfetch, bind_error, commit_error]

/-! ## The obligations -/

/-- Settles O29: the completing form is `Effect.jmp`, the fault is the matrix's. -/
theorem jmpSetsPcToRegister : Obligations.JmpSetsPcToRegister :=
  ⟨fun _ _ => rfl, fun _ r => exec_of_effect (.jmp r) (.inr nofun),
    fun _ _ ha => exec_of_ownFault (regFault_above ha) (.inr nofun)⟩

/-- Settles O33: the effect is `Effect.hlt`; a halted machine's step is idle, and at 254 or 255 the
fetch faults whatever is stored there. -/
theorem hltAdvancesAndHalts : Obligations.HltAdvancesAndHalts := by
  refine ⟨fun _ _ => rfl, fun _ => exec_of_effect .hlt (.inr nofun),
    fun s t hhalt hstep => ?terminal, fun s hrun hpc _ => ?unreached⟩
  case terminal =>
    have hidle : step s = .next s := step_of_not_running (by simp [hhalt])
    exact (Host.Outcome.next.inj (hidle.symm.trans hstep)).symm
  case unreached =>
    exact ⟨_, step_of_pc_above_253 hrun (by omega), rfl, rfl⟩

end Sys2Proof.Machine
end

