-- ==== Sys2Proof/Proofs/RegisterSet.lean ====
section
/-! R180: LDI. Its effect is read off `Effect`, its register check off the fault matrix. -/

namespace Sys2Proof.Machine

@[simp] theorem State.setReg_setReg (s : State) (r : RegIx) (v w : Byte) :
    (s.setReg r v).setReg r w = s.setReg r w := by
  simp [State.setReg]

theorem exec_ldi_regByte (s : State) (r : RegIx) (imm : Byte) :
    exec (.ldi (regByte r) imm) s = .next ((s.setReg r imm).autoAdvance 0x82) :=
  exec_of_effect (.ldi r imm) (.inr nofun)

/-- Settles O34: the completing form is `Effect.ldi`; its write leaves no trace of an earlier write to
the same register; the fault is the matrix's. -/
theorem ldiWritesImmediate : Obligations.LdiWritesImmediate := by
  refine ⟨fun _ _ => rfl, fun s r imm => ?completes, fun s r v imm => ?oldValueUnread,
    fun _ _ _ ha => exec_of_ownFault (regFault_above ha) (.inr nofun)⟩
  case completes =>
    exact ⟨_, exec_ldi_regByte s r imm, State.getReg_setReg_same s r imm,
      regsSameBut_setReg_autoAdvance _ _ _ _, rfl, rfl, rfl, rfl, rfl, rfl⟩
  case oldValueUnread =>
    rw [exec_ldi_regByte, exec_ldi_regByte, State.setReg_setReg]

end Sys2Proof.Machine
end

namespace Sys2Proof

/-! # Decoding: the converse of its inversion, and the bytes it rejects (R85, R90, R114, R134) -/

/-! ## What the decoder answers, both ways -/

/-- An opcode byte followed by its instruction's operand bytes decodes to the instruction; a
candidate operand that the format does not count may be any byte (R85). -/
theorem decode_of_operandBytes_prefix {a b : Byte} {i : Instr} (h : operandBytes i <+: [a, b]) :
    decode (opcode i) a b = .instr i := by
  cases i with
  | hlt | ret => rfl
  | push c | pop c | prn c | call c | jmp c | jeq c | jne c =>
    obtain ⟨rfl, -⟩ := List.cons_prefix_cons.mp h
    simp only [opcode]; rfl
  | ldi c d | add c d | mul c d | cmp c d =>
    obtain ⟨rfl, hd⟩ := List.cons_prefix_cons.mp h
    obtain ⟨rfl, -⟩ := List.cons_prefix_cons.mp hd
    simp only [opcode]; rfl

theorem decode_eq_instr_iff (ir a b : Byte) (i : Instr) :
    decode ir a b = .instr i ↔ encode i <+: [ir, a, b] := by
  refine ⟨encode_prefix_of_decode, fun h => ?_⟩
  obtain ⟨rfl, hops⟩ := List.cons_prefix_cons.mp h
  exact decode_of_operandBytes_prefix hops

/-- Settles O6: forward the decoder's inversion, backward its evaluation at each opcode byte. -/
theorem decodeEncodeAgree : Obligations.DecodeEncodeAgree := decode_eq_instr_iff

/-! ## The bytes of no instruction -/

/-- An opcode byte decodes to an instruction whatever follows it. -/
theorem exists_decode_opcode (i : Instr) (a b : Byte) : ∃ j, decode (opcode i) a b = .instr j := by
  cases i <;> simp only [opcode] <;> exact ⟨_, rfl⟩

theorem decodeAlu_cases (ir a b : Byte) :
    (∃ i, decodeAlu ir a b = .instr i) ∨ decodeAlu ir a b = .unsupportedAluOp ir := by
  unfold decodeAlu
  split
  case h_4 => exact .inr rfl
  all_goals exact .inl ⟨_, rfl⟩

theorem decodeTable_cases (ir a b : Byte) :
    (∃ i, decodeTable ir a b = .instr i) ∨ decodeTable ir a b = .decodeError ir := by
  unfold decodeTable
  split
  case h_11 => exact .inr rfl
  all_goals exact .inl ⟨_, rfl⟩

/-- The answer to a byte of no instruction: bit 5 decides between the two causes (R90). -/
def rejection (ir : Byte) : Decoded := if aluClass ir then .unsupportedAluOp ir else .decodeError ir

/-- Everything the decoder can answer: an instruction or the rejection of the opcode byte. -/
theorem decode_cases (ir a b : Byte) :
    (∃ i, decode ir a b = .instr i) ∨ decode ir a b = rejection ir := by
  unfold decode rejection
  split
  · exact decodeAlu_cases ir a b
  · exact decodeTable_cases ir a b

theorem rejection_ne_instr (ir : Byte) (i : Instr) : rejection ir ≠ .instr i := by
  unfold rejection
  split <;> nofun

/-- A byte is rejected, whatever follows it, exactly when it is no opcode. -/
theorem decode_eq_rejection_iff (ir a b : Byte) :
    decode ir a b = rejection ir ↔ ∀ i, opcode i ≠ ir := by
  refine ⟨fun hd i hi => ?_, fun hill => (decode_cases ir a b).resolve_left fun ⟨i, hd⟩ =>
    hill i (eq_opcode_of_decode hd).symm⟩
  obtain ⟨j, hj⟩ := exists_decode_opcode i a b
  rw [hi, hd] at hj
  exact rejection_ne_instr ir j hj

/-! ## Operand bytes that are not counted (R85) -/

/-- Only the operand bytes that bits 7:6 count have an effect: an instruction's encoding has no
more, and a rejection looks at none. -/
theorem decode_congr_counted {ir a b a' b' : Byte}
    (h : [a, b].take (operandCount ir) = [a', b'].take (operandCount ir)) :
    decode ir a b = decode ir a' b' := by
  rcases decode_cases ir a b with ⟨i, hd⟩ | hd
  · obtain rfl := eq_opcode_of_decode hd
    obtain ⟨-, hpre⟩ := List.cons_prefix_cons.mp (encode_prefix_of_decode hd)
    have hbytes : operandBytes i = [a', b'].take (operandCount (opcode i)) := by
      rw [← h, ← length_operandBytes]
      exact List.prefix_iff_eq_take.mp hpre
    rw [hd, decode_of_operandBytes_prefix (hbytes ▸ List.take_prefix _ _)]
  · have hill := (decode_eq_rejection_iff ir a b).mp hd
    rw [hd, (decode_eq_rejection_iff ir a' b').mpr hill]

/-- Settles O7: an uncounted byte is not among the counted operand bytes. -/
theorem uncountedOperandsIgnored : Obligations.UncountedOperandsIgnored :=
  ⟨fun _ _ _ _ _ h0 => decode_congr_counted (by rw [h0]; rfl),
    fun _ _ _ _ h1 => decode_congr_counted (by rw [h1]; rfl)⟩

/-- Settles O1: each fixed word is evaluated. -/
theorem sampleWordsDecode : Obligations.SampleWordsDecode := by
  and_intros <;> rfl

end Sys2Proof

namespace Sys2Proof.Machine

/-! # What an instruction's effect changes and keeps

One lemma per field of the state over all of `Effect`, and one over every next state of `exec`. -/

theorem toNat_byte_le (v : Byte) : v.toNat ≤ 255 := Nat.le_of_lt_succ v.isLt

/-! ## Fault record, run state, output, memory -/

section Effects

variable {i : Instr} {s t : State}

theorem Effect.fault_eq (h : Effect s i t) : t.fault = s.fault := by
  cases h <;> rfl

theorem Effect.status_of_hlt (h : Effect s .hlt t) : t.status = .halted := by
  cases h
  rfl

theorem Effect.status_eq (h : Effect s i t) (hi : i ≠ .hlt) : t.status = s.status := by
  cases h with
  | hlt => exact absurd rfl hi
  | _ => rfl

theorem Effect.runSame (h : Effect s i t) (hi : i ≠ .hlt) : runSame s t :=
  ⟨h.status_eq hi, h.fault_eq⟩

theorem Effect.out_eq (h : Effect s i t) (hi : ∀ a, i ≠ .prn a) : t.out = s.out := by
  cases h with
  | prn r => exact absurd rfl (hi _)
  | _ => rfl

theorem Effect.mem_eq (h : Effect s i t) (hpush : ∀ a, i ≠ .push a) (hcall : ∀ a, i ≠ .call a) :
    t.mem = s.mem := by
  cases h with
  | push r h => exact absurd rfl (hpush _)
  | call r h => exact absurd rfl (hcall _)
  | _ => rfl

/-- Whatever an instruction stores, it stores at an address of the machine. -/
theorem Effect.keeps_wf (h : Effect s i t) (hm : s.mem.wf) : t.mem.wf := by
  cases h with
  | push r h => exact writeByte_keeps_wf _ _ _ (toNat_byte_le _) hm
  | call r h => exact writeByte_keeps_wf _ _ _ (toNat_byte_le _) hm
  | _ => exact hm

/-! ## The program counter (R116) -/

theorem Effect.pc_of_auto_advance (h : Effect s i t) (hb : directPcClass (opcode i) = false) :
    t.pc = s.pc + 1 + operandCount (opcode i) := by
  cases h with
  | ret | call | jmp | jeqTaken | jeqUntaken | jneTaken | jneUntaken =>
    simp [directPcClass, opcode] at hb
  | _ => rfl

/-- An instruction goes on to the next one or takes its target from a byte (R166). -/
theorem Effect.pc_cases (h : Effect s i t) :
    t.pc = s.pc + 1 + operandCount (opcode i) ∨ t.pc ≤ 255 := by
  cases h with
  | ret | call | jmp | jeqTaken | jneTaken => exact .inr (toNat_byte_le _)
  | jeqUntaken | jneUntaken => exact .inl (by simp [operandCount, opcode])
  | _ => exact .inl rfl

/-! ## Registers -/

end Effects

/-- The registers an instruction may write: the first operand of POP, LDI, ADD and MUL, and the
pointer of the four stack instructions. -/
def writesReg : Instr → RegIx → Prop
  | .push _, r | .call _, r | .ret, r => r = 7
  | .pop a, r => a.toNat = r.val ∨ r = 7
  | .ldi a _, r | .add a _, r | .mul a _, r => a.toNat = r.val
  | _, _ => False

theorem regByte_toNat_eq_iff (r q : RegIx) : (regByte r).toNat = q.val ↔ q = r := by
  rw [regByte_toNat, Fin.val_inj, eq_comm]

theorem Effect.regsSameBut {i : Instr} {s t : State} (h : Effect s i t) :
    regsSameBut (writesReg i) s t := by
  intro q hq
  cases h with
  | push | call => exact State.getReg_decSp_ne s q hq
  | ret => exact State.getReg_incSp_ne _ q hq
  | pop r =>
    obtain ⟨hr, h7⟩ := not_or.mp hq
    rw [State.getReg_autoAdvance, State.getReg_incSp_ne _ q h7,
      State.getReg_setReg_ne _ _ _ _ (mt (regByte_toNat_eq_iff r q).mpr hr)]
  | ldi r | add r | mul r =>
    exact regsSameBut_setReg_autoAdvance _ _ _ _ q (mt (regByte_toNat_eq_iff r q).mpr hq)
  | _ => rfl

/-! ## Every next state of `exec` -/

section NextStates

variable {i : Instr} {s t : State} (h : exec i s = .next t)
include h

theorem exec_effect (hn : ownFault i s = none) : Effect s i t := by
  rcases exec_next_cases h with ⟨r, hr, -⟩ | ⟨-, he⟩
  · rw [hn] at hr
    cases hr
  · exact he

theorem eq_takeFault_of_exec (hf : ownFault i s ≠ none) : ∃ r, t = takeFault s r := by
  rcases exec_next_cases h with ⟨r, -, ht⟩ | ⟨hn, -⟩
  · exact ⟨r, ht⟩
  · exact absurd hn hf

theorem exec_x_eq_of_fault (hf : ownFault i s ≠ none) : t.x = s.x := by
  obtain ⟨r, rfl⟩ := eq_takeFault_of_exec h hf
  rfl

theorem exec_memSame_of_fault (hf : ownFault i s ≠ none) : memSame s t := by
  obtain ⟨r, rfl⟩ := eq_takeFault_of_exec h hf
  exact fun _ => rfl

theorem exec_out_eq (hi : ∀ a, i ≠ .prn a) : t.out = s.out := by
  rcases exec_next_cases h with ⟨r, -, rfl⟩ | ⟨-, he⟩
  · rfl
  · exact he.out_eq hi

theorem exec_memSame (hpush : ∀ a, i ≠ .push a) (hcall : ∀ a, i ≠ .call a) : memSame s t := by
  intro a
  rcases exec_next_cases h with ⟨r, -, rfl⟩ | ⟨-, he⟩
  · rfl
  · rw [he.mem_eq hpush hcall]

theorem exec_regsSameBut : regsSameBut (writesReg i) s t := by
  rcases exec_next_cases h with ⟨r, -, rfl⟩ | ⟨-, he⟩
  · exact fun _ _ => rfl
  · exact he.regsSameBut

end NextStates

/-! ## The frames of the four groups of instructions -/

/-- Settles O36: none of the three writes memory, flag or output, and each one register. -/
theorem registerWritersFrame : Obligations.RegisterWritersFrame := by
  rintro s t a b i hi h
  have hregs := exec_regsSameBut h
  rcases hi with rfl | rfl | rfl <;>
    exact ⟨hregs, exec_memSame h nofun nofun, exec_flag_eq h nofun,
      exec_out_eq h nofun, fun hn => (exec_effect h hn).runSame nofun⟩

/-- Whatever the instruction, the only cell of memory that may change is the one PUSH and CALL store
to, at the decremented pointer (R151, R160). -/
theorem exec_memSameBut_pointer {i : Instr} {s t : State} (h : exec i s = .next t) :
    memSameBut s.decSp.sp.toNat s t := by
  intro a ha
  rcases exec_next_cases h with ⟨r, -, rfl⟩ | ⟨-, he⟩
  · rfl
  · cases he with
    | push | call => exact readByte_writeByte_ne _ _ _ _ ha
    | _ => rfl

/-- Settles O37: the one cell and the one register both write; a fault writes neither. -/
theorem stackWritersFrame : Obligations.StackWritersFrame := by
  rintro s t a i hi h
  have hregs := exec_regsSameBut h
  have hmem := exec_memSameBut_pointer h
  have hfault (hf : ownFault i s ≠ none) : memSame s t ∧ t.x = s.x :=
    ⟨exec_memSame_of_fault h hf, exec_x_eq_of_fault h hf⟩
  rcases hi with rfl | rfl <;>
    exact ⟨hregs, hmem, exec_flag_eq h nofun, exec_out_eq h nofun,
      fun hn => (exec_effect h hn).runSame nofun, hfault⟩

/-- Settles O38: POP and RET store nothing, and the matrix gives RET no fault. -/
theorem stackReadersFrame : Obligations.StackReadersFrame := by
  refine ⟨fun s t a h => ?pop, fun s t h => ?ret⟩
  case pop =>
    exact ⟨exec_memSame h nofun nofun, exec_regsSameBut h, exec_flag_eq h nofun,
      exec_out_eq h nofun, fun hn => (exec_effect h hn).runSame nofun, exec_x_eq_of_fault h⟩
  case ret =>
    exact ⟨exec_memSame h nofun nofun, exec_regsSameBut h, exec_flag_eq h nofun,
      exec_out_eq h nofun, (exec_effect h rfl).runSame nofun⟩

/-- Settles O39: the six write no register and no memory, and each of CMP, PRN and HLT its own
field. -/
theorem noRegisterWritersFrame : Obligations.NoRegisterWritersFrame := by
  rintro s t a b i hi h
  have hregs := exec_regsSameBut h
  have hrun (hn : ownFault i s = none) : t.fault = s.fault ∧ (i ≠ .hlt → t.status = s.status) :=
    ⟨(exec_effect h hn).fault_eq, (exec_effect h hn).status_eq⟩
  rcases hi with rfl | rfl | hi
  · exact ⟨hregs, exec_memSame h nofun nofun, fun hne => absurd rfl hne,
      fun _ => exec_out_eq h nofun, hrun⟩
  · exact ⟨hregs, exec_memSame h nofun nofun, fun _ => exec_flag_eq h nofun,
      fun hne => absurd rfl hne, hrun⟩
  · rcases hi with rfl | rfl | rfl | rfl <;>
      exact ⟨hregs, exec_memSame h nofun nofun, fun _ => exec_flag_eq h nofun,
        fun _ => exec_out_eq h nofun, hrun⟩

/-! ## The fault matrix and the advance -/

/-- Settles O14: the matrix's condition is the one `exec` takes. -/
theorem faultMatrixHolds : Obligations.FaultMatrixHolds :=
  fun _ _ _ hpc hf => exec_of_ownFault hf (.inl hpc)

/-- Where the matrix gives no condition the instruction completes with its effect. -/
theorem exists_exec_effect {i : Instr} {s : State} (hpc : s.pc ≤ 253) (hn : ownFault i s = none) :
    ∃ t, exec i s = .next t ∧ Effect s i t := by
  rcases exec_cases i s (.inl hpc) with ⟨r, hr, -⟩ | ⟨t, -, h⟩
  · rw [hn] at hr
    cases hr
  · exact ⟨t, h⟩

/-- Settles O15: an effect keeps the record, and the run state unless it is HLT's. -/
theorem noFaultOutsideMatrix : Obligations.NoFaultOutsideMatrix := by
  intro i s hpc hn
  obtain ⟨t, h, he⟩ := exists_exec_effect hpc hn
  refine ⟨t, h, he.fault_eq, ?_⟩
  by_cases hi : i = .hlt
  · subst hi
    exact .inl ⟨rfl, he.status_of_hlt⟩
  · exact .inr ⟨hi, he.status_eq hi⟩

/-- An instruction has one effect. -/
theorem Effect.unique {i : Instr} {s t u : State} (hpc : s.pc ≤ 253) (ht : Effect s i t)
    (hu : Effect s i u) : t = u :=
  Host.Outcome.next.inj ((exec_of_effect ht (.inl hpc)).symm.trans (exec_of_effect hu (.inl hpc)))

theorem pointer_pos_of_ownFault_call {a : Byte} {s : State} (h : ownFault (.call a) s = none) :
    0 < (s.getReg 7).toNat := by
  rcases checkPush_cases s with ⟨hpos, -, -⟩ | ⟨-, -, hf⟩
  · exact hpos
  · rw [ownFault, hf] at h
    cases h

/-- Settles O16: the class by the opcode's bit 4; each target is read off the constructor of
`Effect` that the instruction and the flag select. -/
theorem dispatcherAdvancesPc : Obligations.DispatcherAdvancesPc := by
  refine ⟨directPcClass_opcode_iff, fun i s hpc hn => ?_⟩
  obtain ⟨t, h, he⟩ := exists_exec_effect hpc hn
  refine ⟨t, h, ?auto, ?ret, ?call, ?jmp, ?jeqTaken, ?jneTaken, ?jeqUntaken, ?jneUntaken⟩
  case auto =>
    intro hb
    rw [he.pc_of_auto_advance hb, operandCount_eq_div]
  case ret => rintro rfl; rw [he.unique hpc .ret]; rfl
  case call =>
    rintro r rfl
    rw [he.unique hpc (.call r (pointer_pos_of_ownFault_call hn))]; rfl
  case jmp => rintro r rfl; rw [he.unique hpc (.jmp r)]; rfl
  case jeqTaken => rintro r rfl hf; rw [he.unique hpc (.jeqTaken r hf)]; rfl
  case jneTaken => rintro r rfl hf; rw [he.unique hpc (.jneTaken r hf)]; rfl
  case jeqUntaken => rintro a rfl hf; rw [he.unique hpc (.jeqUntaken a hf)]; rfl
  case jneUntaken => rintro a rfl hf; rw [he.unique hpc (.jneUntaken a hf)]; rfl

end Sys2Proof.Machine

namespace Sys2Proof.Machine

/-! # The dispatch cycle (R110 to R121)

`Cycle` says once everything a step of a running machine can end in; the rules about a run are read
off it. -/

/-! ## Fetch and route -/

theorem fetchInstr_of_holdsAtPc {s : State} {ir a b : Byte} (hpc : s.pc ≤ 253)
    (hh : s.holdsAtPc ir a b) : fetchInstr s = route ⟨ir, a, b⟩ := by
  obtain ⟨rfl, rfl, rfl⟩ := hh
  rcases fetch_cases s with ⟨-, hf⟩ | ⟨hgt, -⟩
  · rw [fetchInstr, hf, bind_ok]
  · omega

/-- The fatal condition of a byte of no instruction, bit 5 deciding its cause (R201). -/
def rejected (ir : Byte) : Raised :=
  ⟨if ir.toNat / 32 % 2 = 1 then .unsupportedAluOp else .decodeError, ir.toNat⟩

theorem rejection_eq_ite (ir : Byte) :
    rejection ir = if ir.toNat / 32 % 2 = 1 then .unsupportedAluOp ir else .decodeError ir := by
  simp only [rejection, aluClass_iff_div_mod]

theorem route_of_rejection {ir a b : Byte} (hd : decode ir a b = rejection ir) :
    route ⟨ir, a, b⟩ = .error (rejected ir) := by
  rw [rejection_eq_ite] at hd
  by_cases h5 : ir.toNat / 32 % 2 = 1
  · rw [if_pos h5] at hd
    simp only [route, hd, rejected, if_pos h5]
  · rw [if_neg h5] at hd
    simp only [route, hd, rejected, if_neg h5]

section RunningStep

variable {s : State} {ir a b : Byte} (hrun : s.status = .running) (hpc : s.pc ≤ 253)
  (hh : s.holdsAtPc ir a b)
include hrun hpc hh

theorem step_of_decode {i : Instr} (hd : decode ir a b = .instr i) : step s = exec i s := by
  simp only [step, hrun, fetchInstr_of_holdsAtPc hpc hh, route, hd]

theorem step_of_rejection (hd : decode ir a b = rejection ir) :
    step s = .next (takeFault s (rejected ir)) := by
  simp only [step, hrun, fetchInstr_of_holdsAtPc hpc hh, route_of_rejection hd, commit_error]

end RunningStep

/-- Settles O10: fetch and route are the only things before `exec`. -/
theorem stepRunsDecodedInstruction : Obligations.StepRunsDecodedInstruction :=
  fun _ _ _ _ _ hrun hpc hh hd => step_of_decode hrun hpc hh hd

/-- Settles O11: the fetch raises before any opcode byte is looked at. -/
theorem fetchAbove253Faults : Obligations.FetchAbove253Faults :=
  fun _ hrun hpc => step_of_pc_above_253 hrun hpc

/-- Settles O5: the bytes of no instruction are those the decoder rejects, and the two counts are
evaluated over all 256 bytes. -/
theorem illegalOpcodesAreFatal : Obligations.IllegalOpcodesAreFatal := by
  refine ⟨fun ir a b hill => ?decoded, fun s ir a b hrun hpc hh hill => ?taken,
    by decide +kernel, by decide +kernel⟩
  case decoded => rw [(decode_eq_rejection_iff ir a b).mpr hill, rejection_eq_ite]
  case taken => exact step_of_rejection hrun hpc hh ((decode_eq_rejection_iff ir a b).mpr hill)

/-! ## Everything a step can end in -/

/-- What a cycle that begins in `s` ends in: one of the three ways a fatal condition is met, in the
order of R205, or the effect of the instruction at the pc. -/
inductive Cycle (s : State) : State → Prop where
  | fetchFault (hpc : 253 < s.pc) :
      Cycle s (takeFault s ⟨.outOfRangeMemory, if 255 < s.pc then s.pc else 256⟩)
  | illegalOpcode (hpc : s.pc ≤ 253) (hill : ∀ i, opcode i ≠ s.mem.readByte s.pc) :
      Cycle s (takeFault s (rejected (s.mem.readByte s.pc)))
  | instrFault {i : Instr} {r : Raised} (hpc : s.pc ≤ 253) (hop : s.mem.readByte s.pc = opcode i)
      (hf : ownFault i s = some r) : Cycle s (takeFault s r)
  | effect {i : Instr} {t : State} (hpc : s.pc ≤ 253) (hop : s.mem.readByte s.pc = opcode i)
      (he : Effect s i t) : Cycle s t

theorem step_cases {s : State} (hrun : s.status = .running) :
    ∃ t, step s = .next t ∧ Cycle s t := by
  by_cases hpc : s.pc ≤ 253
  · have hh : s.holdsAtPc _ _ _ := ⟨rfl, rfl, rfl⟩
    rcases decode_cases (s.mem.readByte s.pc) (s.mem.readByte (s.pc + 1))
      (s.mem.readByte (s.pc + 2)) with ⟨i, hd⟩ | hd
    · have hop := eq_opcode_of_decode hd
      rw [step_of_decode hrun hpc hh hd]
      rcases exec_cases i s (.inl hpc) with ⟨r, hf, hx⟩ | ⟨t, -, hx, he⟩
      · exact ⟨_, hx, .instrFault hpc hop hf⟩
      · exact ⟨t, hx, .effect hpc hop he⟩
    · have hill := (decode_eq_rejection_iff _ _ _).mp hd
      exact ⟨_, step_of_rejection hrun hpc hh hd, .illegalOpcode hpc hill⟩
  · exact ⟨_, step_of_pc_above_253 hrun (by omega), .fetchFault (by omega)⟩

theorem cycle_of_step {s t : State} (hrun : s.status = .running) (h : step s = .next t) :
    Cycle s t := by
  obtain ⟨u, hu, hc⟩ := step_cases hrun
  rw [h] at hu
  cases hu
  exact hc

/-- A cycle takes a fatal condition or has the effect of the instruction at the pc. -/
theorem Cycle.fault_or_effect {s t : State} (h : Cycle s t) :
    (∃ r, t = takeFault s r) ∨
    (s.pc ≤ 253 ∧ ∃ i, s.mem.readByte s.pc = opcode i ∧ Effect s i t) := by
  cases h with
  | fetchFault | illegalOpcode | instrFault => exact .inl ⟨_, rfl⟩
  | effect hpc hop he => exact .inr ⟨hpc, _, hop, he⟩

/-! ## Runs -/

theorem run_of_not_running {s : State} (h : s.status ≠ .running) (k : Nat) :
    Host.Core.run Sys2Proof.core k s = .next s := by
  induction k with
  | zero => rfl
  | succ k ih =>
    have hstep : Sys2Proof.core.step s = .next s := step_of_not_running h
    simp only [Host.Core.run, hstep]
    exact ih

/-- Settles O12: a stopped machine's step is idle, and so is every run of such steps. -/
theorem stoppedMachineNeverChanges : Obligations.StoppedMachineNeverChanges :=
  fun _ h => ⟨step_of_not_running h, run_of_not_running h⟩

/-- Settles O13: a stopped machine stays, a running one ends its cycle, and at a pc that executes
every instruction faults or has its effect. -/
theorem everyStateHasNextState : Obligations.EveryStateHasNextState := by
  refine ⟨fun s => ?_, fun i s hpc => ?_⟩
  · by_cases hrun : s.status = .running
    · obtain ⟨t, h, -⟩ := step_cases hrun
      exact ⟨t, h⟩
    · exact ⟨s, step_of_not_running hrun⟩
  · rcases exec_cases i s (.inl hpc) with ⟨r, -, h⟩ | ⟨t, -, h, -⟩
    · exact ⟨_, h⟩
    · exact ⟨t, h⟩

/-! ## Run state, pc, output and precision of faults -/

theorem opcode_eq_hlt_iff (i : Instr) : opcode i = 0x01 ↔ i = .hlt := by
  cases i <;> simp [opcode]

theorem opcode_eq_prn_iff (i : Instr) : opcode i = 0x47 ↔ ∃ a, i = .prn a := by
  cases i <;> simp [opcode]

/-- A cycle halts exactly by executing HLT: no fault is met where its opcode byte is fetched. -/
theorem Cycle.halted_iff {s t : State} (hrun : s.status = .running) (h : Cycle s t) :
    t.status = .halted ↔ s.pc ≤ 253 ∧ s.mem.readByte s.pc = 0x01 := by
  cases h with
  | fetchFault hpc => exact iff_of_false nofun fun ⟨hle, _⟩ => by omega
  | illegalOpcode _ hill => exact iff_of_false nofun fun ⟨_, hop⟩ => hill .hlt hop.symm
  | instrFault _ hop hf =>
    refine iff_of_false nofun fun ⟨_, h01⟩ => ?_
    obtain rfl := (opcode_eq_hlt_iff _).mp (hop.symm.trans h01)
    cases hf
  | @effect i _ hpc hop he =>
    rw [hop, opcode_eq_hlt_iff]
    by_cases hi : i = .hlt
    · subst hi
      exact iff_of_true he.status_of_hlt ⟨hpc, rfl⟩
    · refine iff_of_false ?_ fun h => hi h.2
      rw [he.status_eq hi, hrun]
      nofun

theorem Effect.status_ne_faulted {i : Instr} {s t : State} (hrun : s.status = .running)
    (h : Effect s i t) : t.status ≠ .faulted := by
  by_cases hi : i = .hlt
  · subst hi
    rw [h.status_of_hlt]
    nofun
  · rw [h.status_eq hi, hrun]
    nofun

/-- Settles O17: a fault taken is FAULTED, and an effect leaves RUNNING only as HLT's. -/
theorem runStateTransitions : Obligations.RunStateTransitions := by
  intro s t hrun h
  have hc := cycle_of_step hrun h
  refine ⟨hc.halted_iff hrun, fun hfaulted => ?_, fun hnot => ?_⟩
  · rcases hc.fault_or_effect with ⟨r, rfl⟩ | ⟨-, i, -, he⟩
    · exact ⟨r, rfl⟩
    · exact absurd hfaulted (he.status_ne_faulted hrun)
  · rcases hc.fault_or_effect with ⟨r, rfl⟩ | ⟨-, i, -, he⟩
    · exact absurd rfl hnot
    · exact he.fault_eq

theorem operandCount_opcode_le_two (i : Instr) : operandCount (opcode i) ≤ 2 :=
  length_operandBytes i ▸ length_operandBytes_le_two i

/-- Settles O18: a fault keeps the pc, and an effect adds the instruction's length, at most 3, or
takes the pc from a byte. -/
theorem pcStaysInRange : Obligations.PcStaysInRange := by
  intro s t hrun hrange h
  rcases (cycle_of_step hrun h).fault_or_effect with ⟨r, rfl⟩ | ⟨hpc, i, hop, he⟩
  · exact ⟨hrange, fun hle h256 => by rw [takeFault_pc] at h256; omega⟩
  · have hcount := operandCount_opcode_le_two i
    rcases he.pc_cases with hadv | hbyte
    · refine ⟨by omega, fun _ h256 => ?_⟩
      have h253 : s.pc = 253 := by omega
      rw [← h253, hop]
      exact ⟨rfl, by omega⟩
    · exact ⟨by omega, fun _ h256 => by omega⟩

theorem Effect.out_of_prn {a : Byte} {s t : State} (h : Effect s (.prn a) t) :
    ∃ v, t.out = s.out ++ [v] := by
  generalize hi : Instr.prn a = i at h
  cases h with
  | prn r => exact ⟨_, rfl⟩
  | _ => cases hi

/-- Settles O42: no instruction but PRN writes the output, and PRN's effect appends one value. -/
theorem outputGrowsByPrnOnly : Obligations.OutputGrowsByPrnOnly := by
  refine ⟨fun _ _ _ h hi => exec_out_eq h hi, fun s t h => ?_⟩
  by_cases hrun : s.status = .running
  · rcases (cycle_of_step hrun h).fault_or_effect with ⟨r, rfl⟩ | ⟨hpc, i, hop, he⟩
    · exact .inl rfl
    · by_cases hi : ∃ a, i = .prn a
      · obtain ⟨a, rfl⟩ := hi
        exact .inr ⟨hpc, hop, he.out_of_prn⟩
      · exact .inl (he.out_eq fun a ha => hi ⟨a, ha⟩)
  · rw [step_of_not_running hrun] at h
    cases h
    exact .inl rfl

/-- Settles O45: the only faulted state a cycle ends in is the one `takeFault` gives. -/
theorem faultsArePrecise : Obligations.FaultsArePrecise := by
  intro s t hrun h hfaulted
  rcases (cycle_of_step hrun h).fault_or_effect with ⟨r, rfl⟩ | ⟨-, i, -, he⟩
  · exact ⟨rfl, rfl, rfl, rfl, rfl, _, rfl, rfl, rfl⟩
  · exact absurd hfaulted (he.status_ne_faulted hrun)

/-! ## The invariant -/

/-- The record that taking `r` in `s` writes. -/
def Raised.record (r : Raised) (s : State) : FaultRecord :=
  ⟨r.cause, faultCode r.cause, s.pc, opcodeAtPc s, r.value⟩

theorem takeFault_fault_eq_record (s : State) (r : Raised) :
    (takeFault s r).fault = some (r.record s) := rfl

theorem opcodeAtPc_eq {s : State} (hpc : s.pc ≤ 253) :
    opcodeAtPc s = some (s.mem.readByte s.pc) := if_pos (by omega)

theorem rejected_record_legal {s : State} (hpc : s.pc ≤ 253) :
    ((rejected (s.mem.readByte s.pc)).record s).legal s := by
  have hir : (opcodeAtPc s).map BitVec.toNat = some (s.mem.readByte s.pc).toNat := by
    rw [opcodeAtPc_eq hpc]
    rfl
  unfold rejected
  split <;> exact ⟨rfl, rfl, rfl, hir⟩

theorem fetchFault_record_legal {s : State} (hpc : 253 < s.pc) (hrange : s.pc ≤ 256) :
    (Raised.record ⟨.outOfRangeMemory, if 255 < s.pc then s.pc else 256⟩ s).legal s := by
  refine ⟨rfl, rfl, rfl, ?_, ?_⟩
  · simp only [Raised.record]
    split <;> omega
  · exact hpc

theorem regFault_record_legal {a : Byte} {r : Raised} (h : regFault a = some r) (s : State) :
    (r.record s).legal s := by
  rcases checkReg_regFault a with ⟨q, -, -, hn⟩ | ⟨hgt, -, hf⟩
  · rw [hn] at h
    cases h
  · rw [hf] at h
    cases h
    have := a.isLt
    exact ⟨rfl, rfl, rfl, hgt, by simp only [Raised.record]; omega⟩

theorem pushFault_record_legal {s : State} {r : Raised} (h : pushFault s = some r) :
    (r.record s).legal s := by
  rcases checkPush_cases s with ⟨-, -, hn⟩ | ⟨h0, -, hf⟩
  · rw [hn] at h
    cases h
  · rw [hf] at h
    cases h
    exact ⟨rfl, rfl, rfl, rfl, h0⟩

/-- The matrix has two conditions: a push at pointer 0 and an operand byte that names no register.
-/
theorem ownFault_eq_some {i : Instr} {s : State} {r : Raised} (h : ownFault i s = some r) :
    pushFault s = some r ∨ ∃ a, regFault a = some r := by
  cases i with
  | hlt | ret => cases h
  | push a | call a =>
    rcases Option.or_eq_some_iff.mp h with hp | ⟨-, ha⟩
    · exact .inl hp
    · exact .inr ⟨a, ha⟩
  | pop a | prn a | jmp a | ldi a => exact .inr ⟨a, h⟩
  | jeq a =>
    obtain ⟨-, ha⟩ : s.flag = true ∧ regFault a = some r := by simpa [ownFault] using h
    exact .inr ⟨a, ha⟩
  | jne a =>
    obtain ⟨-, ha⟩ : s.flag = false ∧ regFault a = some r := by simpa [ownFault] using h
    exact .inr ⟨a, ha⟩
  | add a b | mul a b | cmp a b =>
    rcases Option.or_eq_some_iff.mp h with ha | ⟨-, hb⟩
    · exact .inr ⟨a, ha⟩
    · exact .inr ⟨b, hb⟩

theorem ownFault_record_legal {i : Instr} {s : State} {r : Raised} (h : ownFault i s = some r) :
    (r.record s).legal s := by
  rcases ownFault_eq_some h with hp | ⟨a, ha⟩
  · exact pushFault_record_legal hp
  · exact regFault_record_legal ha s

theorem State.Inv.pc_le {s : State} (hs : s.Inv) : s.pc ≤ 256 := by
  obtain ⟨-, hpc, -, -⟩ := hs
  exact hpc

/-- Taking a fatal condition whose record is legal keeps the invariant. -/
theorem takeFault_inv {s : State} {r : Raised} (hs : s.Inv) (hr : (r.record s).legal s) :
    (takeFault s r).Inv := by
  obtain ⟨hwf, hpc, -, -⟩ := hs
  refine ⟨hwf, hpc, iff_of_true rfl rfl, fun q hq => ?_⟩
  rw [takeFault_fault_eq_record] at hq
  cases hq
  exact hr

/-- An effect in a running machine keeps the invariant: there is no record, before or after. -/
theorem Effect.inv {i : Instr} {s t : State} (hrun : s.status = .running) (hpc : s.pc ≤ 253)
    (hs : s.Inv) (h : Effect s i t) : t.Inv := by
  obtain ⟨hwf, -, hiff, -⟩ := hs
  have hnone : t.fault = none := by
    rw [h.fault_eq, ← Option.not_isSome_iff_eq_none, ← hiff, hrun]
    nofun
  have hrange : t.pc ≤ 256 := by
    have hcount := operandCount_opcode_le_two i
    rcases h.pc_cases with hadv | hbyte <;> omega
  refine ⟨h.keeps_wf hwf, hrange, iff_of_false (h.status_ne_faulted hrun) (by simp [hnone]), ?_⟩
  intro r hr
  rw [hnone] at hr
  cases hr

/-- Settles O48: by the cases of `Cycle`; a stopped machine does not change. -/
theorem stepKeepsInvariant : Obligations.StepKeepsInvariant := by
  intro s t hs h
  by_cases hrun : s.status = .running
  · cases cycle_of_step hrun h with
    | fetchFault hpc => exact takeFault_inv hs (fetchFault_record_legal hpc hs.pc_le)
    | illegalOpcode hpc _ => exact takeFault_inv hs (rejected_record_legal hpc)
    | instrFault _ _ hf => exact takeFault_inv hs (ownFault_record_legal hf)
    | effect hpc _ he => exact he.inv hrun hpc hs
  · rw [step_of_not_running hrun] at h
    cases h
    exact hs

end Sys2Proof.Machine

namespace Sys2Proof.Machine

/-! # The stack, the branches and PRN (R137, R150 to R166, R182) -/

/-! ## Pushing and popping a byte -/

/-- The state after a push of `v` with the pc as it was: what PUSH and CALL have in common. -/
def State.pushed (s : State) (v : Byte) : State :=
  { s.decSp with mem := s.mem.writeByte (s.decSp.getReg 7).toNat v }

@[simp] theorem State.getReg_pushed (s : State) (v : Byte) (r : RegIx) :
    (s.pushed v).getReg r = s.decSp.getReg r := rfl

/-- The pushed byte lies where the pointer now points. -/
theorem State.readByte_pushed_pointer (s : State) (v : Byte) :
    (s.pushed v).mem.readByte (s.decSp.getReg 7).toNat = v := readByte_writeByte_same _ _ _

theorem State.readByte_pushed_top (s : State) (v : Byte) :
    (s.pushed v).mem.readByte ((s.getReg 7).toNat - 1) = v :=
  s.decSp_sp ▸ s.readByte_pushed_pointer v

theorem State.memSameBut_pushed (s : State) (v : Byte) :
    memSameBut ((s.getReg 7).toNat - 1) s (s.pushed v) := fun _ ha =>
  readByte_writeByte_ne _ _ _ _ (s.decSp_sp ▸ ha)

/-- A pop after a push returns the pointer (R155): the decrement did not wrap. -/
theorem State.getReg_incSp_of_decSp {s t : State} (hpos : 0 < (s.getReg 7).toNat)
    (h : t.getReg 7 = s.decSp.getReg 7) : t.incSp.getReg 7 = s.getReg 7 := by
  apply BitVec.eq_of_toNat_eq
  have hlt := (s.getReg 7).isLt
  rw [State.incSp_sp, h, State.decSp_sp]
  omega

/-! ## The instructions at their legal forms -/

theorem exec_push_regByte {s : State} (hpos : 0 < (s.getReg 7).toNat) (r : RegIx) :
    exec (.push (regByte r)) s = .next ((s.pushed (s.decSp.getReg r)).autoAdvance 0x45) :=
  exec_of_effect (.push r hpos) (.inr nofun)

theorem exec_call_regByte {s : State} (hpc : s.pc ≤ 253) (hpos : 0 < (s.getReg 7).toNat)
    (r : RegIx) : exec (.call (regByte r)) s =
      .next ((s.pushed (BitVec.ofNat 8 (s.pc + 2))).setPc (s.decSp.getReg r).toNat) :=
  exec_of_effect (.call r hpos) (.inl hpc)

theorem exec_pop_regByte (s : State) (r : RegIx) : exec (.pop (regByte r)) s =
    .next ((s.setReg r (s.mem.readByte (s.getReg 7).toNat)).incSp.autoAdvance 0x46) :=
  exec_of_effect (.pop r) (.inr nofun)

theorem exec_ret (s : State) : exec .ret s =
    .next (s.setPc (s.mem.readByte (s.getReg 7).toNat).toNat).incSp :=
  exec_of_effect .ret (.inr nofun)

/-! ## The underflow check and the register check after it (R151, R160) -/

theorem pushFault_of_zero {s : State} (h0 : (s.getReg 7).toNat = 0) :
    pushFault s = some ⟨.stackPointerUnderflow, 0⟩ := if_pos h0

theorem pushFault_of_pos {s : State} (hpos : 0 < (s.getReg 7).toNat) : pushFault s = none :=
  if_neg (by omega)

section StackWriterChecks

variable {i : Instr} {s : State} {a : Byte} (hm : ownFault i s = (pushFault s).or (regFault a))
  (hp : s.pc ≤ 253 ∨ ∀ c, i ≠ .call c)
include hm hp

theorem exec_underflow (h0 : (s.getReg 7).toNat = 0) :
    exec i s = .next (takeFault s ⟨.stackPointerUnderflow, 0⟩) :=
  exec_of_ownFault (by rw [hm, pushFault_of_zero h0, Option.some_or]) hp

theorem exec_stack_operand_above (hpos : 0 < (s.getReg 7).toNat) (ha : 7 < a.toNat) :
    exec i s = .next (takeFault s ⟨.outOfRangeRegister, a.toNat⟩) :=
  exec_of_ownFault (by rw [hm, pushFault_of_pos hpos, Option.none_or, regFault_above ha]) hp

end StackWriterChecks

/-! ## PUSH and POP -/

/-- Settles O22: the completing form pushes the register as read after the decrement; the faults are
the matrix's, the underflow first. -/
theorem pushStoresBelowPointer : Obligations.PushStoresBelowPointer := by
  refine ⟨fun _ _ => rfl, fun s r hpos => ?completes,
    fun _ _ h0 => exec_underflow rfl (.inr nofun) h0,
    fun _ _ hpos ha => exec_stack_operand_above rfl (.inr nofun) hpos ha⟩
  case completes =>
    exact ⟨_, exec_push_regByte hpos r, s.decSp_sp, s.getReg_decSp_ne, s.readByte_pushed_top _,
      s.memSameBut_pushed _, rfl, rfl, rfl, rfl, rfl⟩

/-- Settles O23: the completing form writes the register, then increments the pointer as it stands.
-/
theorem popLoadsThenIncrements : Obligations.PopLoadsThenIncrements := by
  refine ⟨fun _ _ => rfl, fun s r => ?completes,
    fun _ _ ha => exec_of_ownFault (regFault_above ha) (.inr nofun)⟩
  case completes =>
    refine ⟨_, exec_pop_regByte s r, fun hr => ⟨?_, ?_⟩, ?_, fun q hq => ?_,
      rfl, rfl, rfl, rfl, rfl, rfl⟩
    · rw [State.getReg_autoAdvance, State.getReg_incSp_ne _ r hr, State.getReg_setReg_same]
    · rw [State.getReg_autoAdvance, State.incSp_sp, State.getReg_setReg_ne _ _ _ _ hr.symm]
    · rintro rfl
      rw [State.getReg_autoAdvance, State.incSp_sp, State.getReg_setReg_same]
    · obtain ⟨hr, h7⟩ := not_or.mp hq
      rw [State.getReg_autoAdvance, State.getReg_incSp_ne _ q h7, State.getReg_setReg_ne _ _ _ _ hr]

/-- PUSH r then POP q in one: the byte pushed, into q, then the pointer as it stands up by one. -/
theorem exec_push_then_pop {s : State} (hpos : 0 < (s.getReg 7).toNat) (r q : RegIx) :
    andThen (exec (.push (regByte r)) s) (exec (.pop (regByte q))) =
      .next ((((s.pushed (s.decSp.getReg r)).autoAdvance 0x45).setReg q
        (s.decSp.getReg r)).incSp.autoAdvance 0x46) := by
  rw [exec_push_regByte hpos, andThen, exec_pop_regByte]
  rw [State.getReg_autoAdvance, State.getReg_pushed, State.autoAdvance_mem,
    State.readByte_pushed_pointer]

/-- Settles O24: the popped register holds the byte pushed, and a pointer that POP does not load is
incremented back. -/
theorem pushPopRoundTrip : Obligations.PushPopRoundTrip := by
  intro s r q hpos
  refine ⟨_, exec_push_then_pop hpos r q, ?_, ?_, ?_, ?_, ?_, rfl, rfl, rfl⟩
  all_goals simp only [State.getReg_autoAdvance]
  · intro hr hq
    simp [hq, hr]
  · rintro rfl hq
    simp [hq, State.decSp_sp]
  · intro hq
    exact State.getReg_incSp_of_decSp hpos (State.getReg_setReg_ne _ _ _ _ hq.symm)
  · rintro hr rfl
    simp [State.incSp_sp, hr]
  · rintro rfl rfl
    exact State.getReg_incSp_of_decSp hpos (State.getReg_setReg_same _ _ _)

/-- As many pushes as the pointer counts complete, each lowering it by one. -/
theorem pushTimes_completes (r : RegIx) (k : Nat) (s : State) (hk : k ≤ (s.getReg 7).toNat) :
    ∃ t, pushTimes k (regByte r) s = .next t ∧ runSame s t ∧
      (t.getReg 7).toNat = (s.getReg 7).toNat - k := by
  induction k generalizing s with
  | zero => exact ⟨s, rfl, ⟨rfl, rfl⟩, rfl⟩
  | succ k ih =>
    have hsp := s.decSp_sp
    obtain ⟨t, ht, hrun, hpt⟩ := ih ((s.pushed (s.decSp.getReg r)).autoAdvance 0x45)
      (by rw [State.getReg_autoAdvance, State.getReg_pushed]; omega)
    refine ⟨t, ?_, hrun, ?_⟩
    · rw [pushTimes, exec_push_regByte (by omega), andThen, ht]
    · rw [hpt, State.getReg_autoAdvance, State.getReg_pushed]
      omega

/-- Settles O25: by induction on the number of pushes; with the pointer at 0 the next underflows. -/
theorem pushCapacityIsThePointer : Obligations.PushCapacityIsThePointer := by
  refine ⟨fun s r k hk => ?_, rfl⟩
  obtain ⟨t, ht, hrun, hpt⟩ := pushTimes_completes r k s hk
  exact ⟨t, ht, hrun, hpt, fun he => exec_underflow rfl (.inr nofun) (by omega)⟩

/-! ## CALL and RET -/

/-- The return address of an instruction that executes fits a byte (R160). -/
theorem toNat_return_address {s : State} (hpc : s.pc ≤ 253) :
    (BitVec.ofNat 8 (s.pc + 2)).toNat = s.pc + 2 := by
  rw [BitVec.toNat_ofNat]
  omega

/-- Settles O26: the completing form pushes the return address and jumps to the register as read
after the decrement; the faults are the matrix's, the underflow first. -/
theorem callPushesReturnAddress : Obligations.CallPushesReturnAddress := by
  refine ⟨fun _ _ => rfl, fun s r hpc hpos => ?completes,
    fun _ _ hpc h0 => exec_underflow rfl (.inl hpc) h0,
    fun _ _ hpc hpos ha => exec_stack_operand_above rfl (.inl hpc) hpos ha⟩
  case completes =>
    refine ⟨_, exec_call_regByte hpc hpos r, s.decSp_sp, s.getReg_decSp_ne, ?_,
      s.memSameBut_pushed _, rfl, rfl, rfl, rfl, rfl⟩
    rw [State.setPc_mem, State.readByte_pushed_top, toNat_return_address hpc]

/-- Settles O27: RET's one effect. -/
theorem retPopsIntoPc : Obligations.RetPopsIntoPc :=
  ⟨fun _ _ => rfl, fun s => ⟨_, exec_ret s, rfl, State.incSp_sp _,
    fun r hr => State.getReg_incSp_ne _ r hr, rfl, rfl, rfl, rfl, rfl⟩⟩

/-- Settles O28: RET finds the return address where CALL's decremented pointer points, and
increments the pointer back. -/
theorem callRetRoundTrip : Obligations.CallRetRoundTrip := by
  intro s r hpc hpos
  rw [exec_call_regByte hpc hpos]
  refine ⟨_, exec_ret _, ?_, fun q => ?_, rfl, rfl, rfl⟩
  · rw [State.incSp_pc, State.setPc_pc, State.setPc_mem, State.getReg_setPc, State.getReg_pushed,
      State.readByte_pushed_pointer, toNat_return_address hpc]
  · by_cases hq : q = 7
    · subst hq
      exact State.getReg_incSp_of_decSp hpos rfl
    · rw [State.getReg_incSp_ne _ q hq]
      exact s.getReg_decSp_ne q hq

/-! ## JEQ, JNE and PRN -/

/-- Settles O30: taken and untaken are two constructors of `Effect`; the matrix checks the operand
of the taken jump only. -/
theorem jeqJumpsWhenFlagTrue : Obligations.JeqJumpsWhenFlagTrue := by
  refine ⟨fun _ _ => rfl, fun s r hf => exec_of_effect (.jeqTaken r hf) (.inr nofun),
    fun s a hf => exec_of_effect (.jeqUntaken a hf) (.inr nofun), fun s a hf ha => ?_⟩
  exact exec_of_ownFault (by rw [ownFault, if_pos hf, regFault_above ha]) (.inr nofun)

/-- Settles O31: as JEQ, with the flag's sense inverted. -/
theorem jneJumpsWhenFlagFalse : Obligations.JneJumpsWhenFlagFalse := by
  refine ⟨fun _ _ => rfl, fun s r hf => exec_of_effect (.jneTaken r hf) (.inr nofun),
    fun s a hf => exec_of_effect (.jneUntaken a hf) (.inr nofun), fun s a hf ha => ?_⟩
  exact exec_of_ownFault (by rw [ownFault, if_neg (by simp [hf]), regFault_above ha]) (.inr nofun)

/-- A taken JEQ is JMP, its register check included (R164). -/
theorem exec_jeq_eq_jmp {s : State} (a : Byte) (hf : s.flag = true) :
    exec (.jeq a) s = exec (.jmp a) s := by
  simp only [exec, execJeq, execJmp, condEq, hf, jumpIf, if_true]

theorem exec_jne_eq_jmp {s : State} (a : Byte) (hf : s.flag = false) :
    exec (.jne a) s = exec (.jmp a) s := by
  simp only [exec, execJne, execJmp, condNe, hf, jumpIf, Bool.not_false, if_true]

/-- Settles O32: the flag selects the taken branch, which is JMP's cycle. -/
theorem exactlyOneBranchTaken : Obligations.ExactlyOneBranchTaken := by
  intro s a
  cases hf : s.flag with
  | true =>
    exact ⟨exec_jeq_eq_jmp a hf, exec_of_effect (.jneUntaken a hf) (.inr nofun)⟩
  | false =>
    exact ⟨exec_jne_eq_jmp a hf, exec_of_effect (.jeqUntaken a hf) (.inr nofun)⟩

/-- Settles O35: the completing form is `Effect.prn`, the fault is the matrix's. -/
theorem prnAppendsRegister : Obligations.PrnAppendsRegister :=
  ⟨fun _ _ => rfl, fun _ r => exec_of_effect (.prn r) (.inr nofun),
    fun _ _ ha => exec_of_ownFault (regFault_above ha) (.inr nofun)⟩

/-! ## Memory written and fetched again -/

/-- Settles O43: the fetch after a push reads memory, where the pushed byte lies at the cell below
the old pointer. -/
theorem nextFetchSeesPushedByte : Obligations.NextFetchSeesPushedByte := by
  intro s r hpos hpc
  have hread (n : Nat) (hn : (s.getReg 7).toNat - 1 = n) :
      (s.pushed (s.decSp.getReg r)).mem.readByte n = s.decSp.getReg r :=
    hn ▸ s.readByte_pushed_top _
  have hx := exec_push_regByte hpos r
  have hnext : ((s.pushed (s.decSp.getReg r)).autoAdvance 0x45).pc = s.pc + 2 := rfl
  rcases fetch_cases ((s.pushed (s.decSp.getReg r)).autoAdvance 0x45) with ⟨-, hf⟩ | ⟨hgt, -⟩
  · exact ⟨_, _, hx, hf, hread _, hread _, hread _⟩
  · omega

end Sys2Proof.Machine

namespace Sys2Proof.Machine

/-! # Operands, memory, and what the host does (R24, R41, R50 to R70, R240 to R250) -/

/-! ## Operand bytes -/

/-- Settles O8: the check answers the register of the whole byte, or raises with it. -/
theorem registerOperandNotMasked : Obligations.RegisterOperandNotMasked := by
  refine fun a => ⟨fun r => ?_, checkReg_above⟩
  have hr := r.isLt
  rcases checkReg_cases a with ⟨q, hq, hc⟩ | ⟨hgt, hc⟩
  · rw [hc, hq, Except.ok.injEq, Fin.val_inj]
  · rw [hc]
    exact iff_of_false nofun (by omega)

/-- Settles O44: the five codes, and fault entry as it is defined. -/
theorem faultEntryRecords : Obligations.FaultEntryRecords :=
  ⟨⟨rfl, rfl, rfl, rfl, rfl⟩, fun _ _ => rfl⟩

/-! ## The two memory operations (R52) -/

theorem memWrite_of_le {s : State} {a : Nat} (v : Byte) (ha : a ≤ 255) :
    memWrite s a v = .ok { s with mem := s.mem.writeByte a v } := if_pos ha

theorem fetch_ok_iff (s : State) : (∃ f, fetch s = .ok f) ↔ s.pc ≤ 253 := by
  rcases fetch_cases s with ⟨hle, hf⟩ | ⟨hgt, hf⟩
  · exact iff_of_true ⟨_, hf⟩ hle
  · rw [hf]
    exact iff_of_false nofun (by omega)

/-- Settles O46: each operation by its bound; a fetch by its three reads; the pointer is a byte, so
every access through it is inside. -/
theorem memoryOperationsAreBounded : Obligations.MemoryOperationsAreBounded := by
  refine ⟨fun s a ha => if_pos ha, fun s a ha => if_neg (by omega), fun s a v ha => ?write,
    fun s a v ha => if_neg (by omega), fetch_ok_iff, fun s h0 => ?underflow,
    fun s => ⟨_, loadTop_eq s⟩, fun s v => ⟨_, storeTop_eq s v⟩⟩
  case write =>
    exact ⟨_, memWrite_of_le v ha, readByte_writeByte_same _ _ _,
      fun b hb => readByte_writeByte_ne _ _ _ _ hb, rfl⟩
  case underflow =>
    rcases checkPush_cases s with ⟨hpos, -, -⟩ | ⟨-, hc, -⟩
    · omega
    · exact hc

/-! ## The canonical form -/

theorem readByte_of_forall_lt {m : Memory} {a : Nat} (h : ∀ c ∈ m, a < c.1) :
    m.readByte a = Config.unlistedByte := by
  induction m with
  | nil => rfl
  | cons c m ih =>
    obtain ⟨hc, hm⟩ := List.forall_mem_cons.mp h
    rw [Memory.readByte, if_neg (Nat.ne_of_lt hc)]
    exact ih hm

theorem readByte_cons_self (k : Nat) (w : Byte) (m : Memory) :
    Memory.readByte ((k, w) :: m) k = w := if_pos rfl

/-- The parts of a canonical memory with a first entry: that entry lists a byte, the others lie
above it, and they are canonical. -/
theorem wf_cons {k : Nat} {w : Byte} {m : Memory} (h : Memory.wf ((k, w) :: m)) :
    w ≠ Config.unlistedByte ∧ (∀ c ∈ m, k < c.1) ∧ Memory.wf m := by
  obtain ⟨hpair, hmem⟩ := h
  obtain ⟨hlt, hpair⟩ := List.pairwise_cons.mp hpair
  obtain ⟨⟨-, hw⟩, hmem⟩ := List.forall_mem_cons.mp hmem
  exact ⟨hw, hlt, hpair, hmem⟩

/-- The address of a canonical memory's first entry reads there as in no memory whose entries all
lie above it. -/
theorem not_forall_lt_of_readByte_eq {k : Nat} {w : Byte} {m n : Memory}
    (hm : Memory.wf ((k, w) :: m)) (h : Memory.readByte ((k, w) :: m) k = n.readByte k) :
    ¬ ∀ c ∈ n, k < c.1 := by
  intro hn
  obtain ⟨hw, -, -⟩ := wf_cons hm
  rw [readByte_cons_self, readByte_of_forall_lt hn] at h
  exact hw h

section EqualReads

variable {k l : Nat} {w v : Byte} {m n : Memory} (hm : Memory.wf ((k, w) :: m))
  (hn : Memory.wf ((l, v) :: n))
  (h : ∀ a, Memory.readByte ((k, w) :: m) a = Memory.readByte ((l, v) :: n) a)
include hm hn h

/-- The first entry of either memory cannot lie below all of the other's. -/
theorem first_address_eq : k = l := by
  obtain ⟨-, hkm, -⟩ := wf_cons hm
  obtain ⟨-, hln, -⟩ := wf_cons hn
  rcases Nat.lt_trichotomy k l with hlt | heq | hgt
  · refine absurd ?_ (not_forall_lt_of_readByte_eq hm (h k))
    exact List.forall_mem_cons.mpr ⟨hlt, fun c hc => Nat.lt_trans hlt (hln c hc)⟩
  · exact heq
  · refine absurd ?_ (not_forall_lt_of_readByte_eq hn (h l).symm)
    exact List.forall_mem_cons.mpr ⟨hgt, fun c hc => Nat.lt_trans hgt (hkm c hc)⟩

theorem first_byte_eq : w = v := by
  obtain rfl := first_address_eq hm hn h
  simpa only [readByte_cons_self] using h k

theorem tail_readByte_eq (a : Nat) : m.readByte a = n.readByte a := by
  obtain rfl := first_address_eq hm hn h
  obtain ⟨-, hkm, -⟩ := wf_cons hm
  obtain ⟨-, hkn, -⟩ := wf_cons hn
  by_cases ha : a = k
  · subst ha
    rw [readByte_of_forall_lt hkm, readByte_of_forall_lt hkn]
  · simpa only [Memory.readByte, if_neg ha] using h a

end EqualReads

/-- Settles O47: by induction along both lists, whose first entries agree since each is the lowest
address that does not read as unlisted. -/
theorem equalReadsEqualMemories : Obligations.EqualReadsEqualMemories := by
  intro m
  induction m with
  | nil =>
    rintro (_ | ⟨⟨l, v⟩, n⟩) - hn h
    · rfl
    · exact absurd nofun (not_forall_lt_of_readByte_eq hn (h l).symm)
  | cons c m ih =>
    obtain ⟨k, w⟩ := c
    rintro (_ | ⟨⟨l, v⟩, n⟩) hm hn h
    · exact absurd nofun (not_forall_lt_of_readByte_eq hm (h k))
    · obtain ⟨-, -, hm'⟩ := wf_cons hm
      obtain ⟨-, -, hn'⟩ := wf_cons hn
      rw [first_address_eq hm hn h, first_byte_eq hm hn h, ih n hm' hn' (tail_readByte_eq hm hn h)]

/-! ## Host writes and the load -/

theorem hostWrite_of_le (s : State) {a : Nat} (v : Byte) (ha : a ≤ 255) :
    hostWrite s a v = { s with mem := s.mem.writeByte a v } := by
  rw [hostWrite, memWrite_of_le v ha]

/-- Settles O41: only PUSH and CALL have an effect on memory, and they and the host's write each put
one byte where it is read back. -/
theorem memoryWrittenByPushAndCallOnly : Obligations.MemoryWrittenByPushAndCallOnly := by
  refine ⟨fun i s t h hpush hcall => exec_memSame h hpush hcall,
    fun s r hpos => ⟨_, exec_push_regByte hpos r, s.readByte_pushed_top _⟩,
    fun s r hpc hpos => ⟨_, exec_call_regByte hpc hpos r, ?_⟩, fun s a b v ha => ?_⟩
  · rw [State.setPc_mem, State.readByte_pushed_top, toNat_return_address hpc]
  · rw [hostWrite_of_le s v ha, readByte_writeByte]

/-- Storing bytes changes nothing but memory, in range or not. -/
theorem hostStore_with_mem (s : State) (a : Nat) (vs : List Byte) (m : Memory) :
    { hostStore s a vs with mem := m } = { s with mem := m } := by
  induction vs generalizing s a with
  | nil => rfl
  | cons v vs ih =>
    rw [hostStore, ih, hostWrite]
    rcases memWrite_cases s a v with ⟨-, hw⟩ | ⟨-, hw⟩ <;> rw [hw]

theorem hostStore_pc (s : State) (a : Nat) (vs : List Byte) : (hostStore s a vs).pc = s.pc := by
  have h := congrArg State.pc (hostStore_with_mem s a vs [])
  exact h

/-- Bytes stored from `a` upward within the machine are read back there; every other cell reads as
before. -/
theorem readByte_hostStore (s : State) (a b : Nat) (vs : List Byte) (h : a + vs.length ≤ 256) :
    (hostStore s a vs).mem.readByte b =
      if a ≤ b then vs.getD (b - a) (s.mem.readByte b) else s.mem.readByte b := by
  induction vs generalizing s a with
  | nil => simp [hostStore]
  | cons v vs ih =>
    rw [List.length_cons] at h
    rw [hostStore, ih _ _ (by omega), hostWrite_of_le s v (by omega), readByte_writeByte]
    rcases Nat.lt_trichotomy a b with hlt | rfl | hgt
    · obtain ⟨d, rfl⟩ := Nat.exists_eq_add_of_lt hlt
      rw [if_pos (by omega), if_neg (by omega), if_pos (by omega),
        show a + d + 1 - a = (a + d + 1 - (a + 1)) + 1 by omega, List.getD_cons_succ]
    · simp
    · rw [if_neg (by omega), if_neg (by omega), if_neg (by omega)]

/-- Settles O52: the load is a store of the image from address 0. -/
theorem loadPlacesImageFromZero : Obligations.LoadPlacesImageFromZero := by
  refine ⟨fun s img hlen => ⟨_, if_pos hlen, fun a => ?_, hostStore_with_mem s 0 img s.mem⟩,
    fun s img hlen => if_neg (by omega)⟩
  rw [readByte_hostStore s 0 a img (by omega), if_pos (Nat.zero_le a), Nat.sub_zero]

/-! ## Placing an instruction for the next fetch -/

theorem decode_of_decodeTableWord {nbits w : Nat} {i : Instr}
    (h : decodeTableWord nbits w = some i) :
    decode (byteAt (w % 2 ^ nbits) 0) (byteAt (w % 2 ^ nbits) 1) (byteAt (w % 2 ^ nbits) 2) =
      .instr i := by
  unfold decodeTableWord at h
  split at h <;> cases h
  assumption

theorem withFetchWord_holdsAtPc (s : State) (nbits w : Nat) (hpc : s.pc ≤ 253) :
    (s.withFetchWord nbits w).holdsAtPc (byteAt (w % 2 ^ nbits) 0) (byteAt (w % 2 ^ nbits) 1)
      (byteAt (w % 2 ^ nbits) 2) := by
  have hlen : s.pc + (tableBytes nbits w).length ≤ 256 := by
    simp only [tableBytes, List.length_cons, List.length_nil]
    omega
  unfold State.holdsAtPc State.withFetchWord
  simp only [hostStore_pc, readByte_hostStore _ _ _ _ hlen]
  simp [tableBytes]

/-- Settles O9: the placed bytes are the ones fetched, and they decode as the word does. -/
theorem placedWordIsRun : Obligations.PlacedWordIsRun := by
  intro s nbits w i hpc hw
  have hpc' : (s.withFetchWord nbits w).pc ≤ 253 := (hostStore_pc s _ _).le.trans hpc
  exact step_of_decode rfl hpc' (withFetchWord_holdsAtPc s nbits w hpc)
    (decode_of_decodeTableWord hw)

/-! ## Reset and launch -/

theorem hostReset_inv (gpr : Vector Byte 7) (flag : Bool) {mem : Memory} (h : mem.wf) :
    (hostReset gpr flag mem).Inv :=
  ⟨h, Nat.zero_le _, iff_of_false nofun nofun, nofun⟩

theorem reset_eq_hostReset :
    State.reset = hostReset (Vector.replicate 7 Config.gprReset) Config.flagReset [] := rfl

/-- Settles O49: State.reset is a host reset with a canonical memory. -/
theorem resetMeetsInvariant : Obligations.ResetMeetsInvariant := by
  unfold Obligations.ResetMeetsInvariant
  rw [reset_eq_hostReset]
  exact hostReset_inv _ _ reset_memory_wf

theorem hostReset_getReg_castSucc (gpr : Vector Byte 7) (flag : Bool) (mem : Memory) (k : Fin 7) :
    (hostReset gpr flag mem).getReg k.castSucc = gpr[k] :=
  Vector.getElem_push_lt k.isLt

/-- Settles O51: field by field, the registers below the pointer being the pushed-on vector's. -/
theorem resetLeavesTheRest : Obligations.ResetLeavesTheRest :=
  ⟨fun gpr flag mem => ⟨rfl, rfl, rfl, rfl, rfl, rfl, hostReset_getReg_castSucc gpr flag mem⟩,
    reset_eq_hostReset⟩

/-- The cells of the addresses in `l` read as `f`: one left out is one where `f` is the unlisted
byte. -/
theorem readByte_filterMap (f : Nat → Byte) (l : List Nat) (a : Nat) :
    Memory.readByte (l.filterMap fun b => if f b = Config.unlistedByte then none else some (b, f b))
      a = if a ∈ l then f a else Config.unlistedByte := by
  induction l with
  | nil => rfl
  | cons b l ih =>
    by_cases hb : f b = Config.unlistedByte
    · simp only [List.filterMap_cons, if_pos hb, ih]
      by_cases hab : a = b
      · subst hab
        simp [hb]
      · simp [hab]
    · simp only [List.filterMap_cons, if_neg hb, Memory.readByte, ih]
      by_cases hab : a = b
      · subst hab
        simp
      · simp [hab]

theorem readByte_ofCells (f : Nat → Byte) {a : Nat} (ha : a ≤ 255) :
    (Memory.ofCells f).readByte a = f a :=
  (readByte_filterMap f _ a).trans (if_pos (List.mem_range.mpr (by omega)))

/-- Settles O53: the launch state is a host reset over the memory of the image's and MEM_INIT's
cells. -/
theorem launchStateForEveryParameter : Obligations.LaunchStateForEveryParameter :=
  fun img gpr flag memInit => ⟨fun hlen => ⟨_, if_pos hlen,
    fun _ ha => readByte_ofCells (fun a => img.getD a (memInit a)) ha, rfl,
    hostReset_inv gpr flag (ofCells_wf _)⟩, fun hlen => if_neg (by omega)⟩

/-- Settles O55: a cell at pc + n is shown when pc + n is within 0 to 255. -/
theorem traceShowsState : Obligations.TraceShowsState := by
  refine fun s => ⟨rfl, rfl, rfl, ?_, ?_⟩
  · exact if_congr (by omega) rfl rfl
  · exact if_congr (by omega) rfl rfl

end Sys2Proof.Machine

namespace Sys2Proof.Machine

/-! # The image format (R246) -/

/-- The character of a binary digit. -/
def digitChar (b : Bool) : Char := if b then '1' else '0'

@[simp] theorem binaryDigit_digitChar (b : Bool) : binaryDigit (digitChar b) = some b.toNat := by
  cases b <;> rfl

theorem digitChar_ne_hash (b : Bool) : (digitChar b != '#') = true := by
  cases b <;> rfl

theorem isBlankChar_digitChar (b : Bool) : isBlankChar (digitChar b) = false := by
  cases b <;> rfl

/-- The low `n` bits of `v` as digits, most significant first, read on from `acc` as the binary
number `acc` followed by these digits. -/
theorem binaryValue_low_bits (v n acc : Nat) :
    binaryValue acc ((List.range n).reverse.map fun k => digitChar (v.testBit k)) =
      some (acc * 2 ^ n + v % 2 ^ n) := by
  induction n generalizing acc with
  | zero => simp [binaryValue, Nat.mod_one]
  | succ n ih =>
    rw [List.range_succ, List.reverse_append, List.reverse_singleton, List.singleton_append,
      List.map_cons, binaryValue, binaryDigit_digitChar]
    simp only [ih, Nat.mod_pow_succ, Nat.toNat_testBit]
    congr 1
    ring

theorem imageDigits_eq (v : Byte) :
    imageDigits v = (List.range 8).reverse.map fun k => digitChar (v.toNat.testBit k) := rfl

/-- The eight digits of a byte are read as the byte. -/
theorem binaryValue_imageDigits (v : Byte) : binaryValue 0 (imageDigits v) = some v.toNat := by
  rw [imageDigits_eq, binaryValue_low_bits, Nat.zero_mul, Nat.zero_add, Nat.mod_eq_of_lt v.isLt]

/-- What stands before the comment: the digits and the space after them. -/
theorem takeWhile_imageLine (v : Byte) (comment : List Char) :
    (imageDigits v ++ ' ' :: '#' :: comment).takeWhile (fun c => c != '#') =
      imageDigits v ++ [' '] := by
  have hdigits : ∀ c ∈ imageDigits v, (c != '#') = true := by
    rw [imageDigits_eq]
    intro c hc
    obtain ⟨k, -, rfl⟩ := List.mem_map.mp hc
    exact digitChar_ne_hash _
  rw [List.takeWhile_append_of_pos hdigits]
  rfl

theorem length_imageDigits (v : Byte) : (imageDigits v).length = 8 := rfl

/-- A line's content begins with a digit, has at least eight characters, and its first eight are the
byte's. -/
theorem imageLine_imageDigits (v : Byte) (comment : List Char) :
    imageLine (imageDigits v ++ ' ' :: '#' :: comment) = .byte v := by
  obtain ⟨b, ds, hds⟩ : ∃ b ds, imageDigits v = digitChar b :: ds := ⟨v.toNat.testBit 7, _, rfl⟩
  have hdrop : (imageDigits v ++ [' ']).dropWhile isBlankChar = digitChar b :: (ds ++ [' ']) := by
    rw [hds, List.cons_append, List.dropWhile_cons_of_neg (by simp [isBlankChar_digitChar])]
  have hhead : (imageDigits v ++ [' ']).head? = some (digitChar b) := by rw [hds]; rfl
  have hvalue : binaryValue 0 ((imageDigits v ++ [' ']).take 8) = some v.toNat := by
    rw [List.take_left' (length_imageDigits v), binaryValue_imageDigits]
  simp [imageLine, takeWhile_imageLine, hdrop, hhead, length_imageDigits, hvalue]

/-- Settles O54: line by line, each giving its byte. -/
theorem imageLinesGiveTheirBytes : Obligations.ImageLinesGiveTheirBytes := by
  intro lines
  induction lines with
  | nil => rfl
  | cons p ps ih =>
    simp only [List.map_cons, imageOfLines, imageLine_imageDigits, ih]

end Sys2Proof.Machine
